-- ==== Sys2Proof/Word.lean ====
section
/-!
DEFINITION. The word types of the JSsh digest CORE (00_scope.md R8): unsigned words of 8, 32 and 64 bits.
Addition `+`, and the bitwise operators `&&&`, `|||`, `^^^` and `~~~` on `BitVec w` are the operators of R9, all modulo 2^w.
Rotations, shifts and byte orders are in Machine/Operands.lean.
-/
namespace Sys2Proof

/-- An octet, 0 to 255 (R8). -/
abbrev Byte := BitVec 8

/-- A 32-bit word: a command word, a bus word, or an algorithm word of MD5, SHA-1 and SHA-256. -/
abbrev Word := BitVec 32

/-- A 64-bit word: a chaining register, or an algorithm word of SHA-384 and SHA-512. -/
abbrev DWord := BitVec 64

end Sys2Proof
end

