-- ==== Sys2Proof/Syntax.lean ====
section
/-!
DEFINITION. The eight commands of spec/opcode_table.json (30_encoding.md R92), the algorithm enumeration and the command
errors.
-/
namespace Sys2Proof

/-- A command of the CORE, with its operand fields as they stand in the word (30_encoding.md R91): the 4-bit ALG field of
INIT and HINIT, the 8-bit N field of FINAL and UNHEX. Values the spec gives an error (R93, R94) are operands too: the
meaning raises that error. -/
inductive Instr where
  | nop
  | init (alg : BitVec 4)
  | hinit (alg : BitVec 4)
  | update
  | final (n : BitVec 8)
  | hex
  | unhex (n : BitVec 8)
  | clear
deriving DecidableEq, Repr

/-- The closed enumeration of algorithms (00_scope.md R6, 10_state.md R24). -/
inductive Alg where
  | md5
  | sha1
  | sha256
  | sha384
  | sha512
deriving DecidableEq, Repr

/-- The command errors (60_exceptions.md R341). They are completion statuses, reported in STATUS.ERRCODE. -/
inductive CmdError where
  | illegalCmd
  | reservedField
  | unknownAlgorithm
  | sequence
  | length
  | hexFormat
deriving DecidableEq, Repr

/-- What decoding a command word gives: a command, or the error that its fields alone raise. -/
inductive Decoded where
  | instr (i : Instr)
  | reject (e : CmdError)
deriving DecidableEq, Repr

end Sys2Proof
end

