-- ==== Sys2Proof/WellFormed.lean ====
section
/-!
DEFINITION. Well-formed commands: those whose operand is admitted in some session (30_encoding.md R93, R94). The other
operand values are encodable too, decode to the same constructor, and run: their meaning raises the spec's error
(log entry 10).
-/
namespace Sys2Proof

/-- R93: INIT and HINIT admit ALG 0 to 4. R94: UNHEX admits N up to 64; FINAL admits N below the block size, at most 127. -/
def Instr.wellFormed : Instr → Bool
  | .nop => true
  | .init a => decide (a.toNat ≤ 4)
  | .hinit a => decide (a.toNat ≤ 4)
  | .update => true
  | .final n => decide (n.toNat ≤ 127)
  | .hex => true
  | .unhex n => decide (n.toNat ≤ 64)
  | .clear => true

/-- The command's operand is admitted in some session. -/
abbrev Instr.WellFormed (i : Instr) : Prop := i.wellFormed = true

end Sys2Proof
end

