-- ==== Sys2Proof/Decode.lean ====
section
/-!
DEFINITION. Decoding of the 32-bit command word (30_encoding.md R90 to R98), total, and the encoder (R99).
The checks that need the session (SEQUENCE, LENGTH, HEX_FORMAT) and the range check of ALG, which R96 orders after those
made here, are in the meanings.
-/
namespace Sys2Proof

/-- OP, bits 3:0 (R91). -/
def opField (v : Word) : BitVec 4 := v.extractLsb' 0 4

/-- ALG, bits 7:4 (R91). -/
def algField (v : Word) : BitVec 4 := v.extractLsb' 4 4

/-- N, bits 15:8 (R91). -/
def nField (v : Word) : BitVec 8 := v.extractLsb' 8 8

/-- RSV, bits 31:16 (R91). -/
def rsvField (v : Word) : BitVec 16 := v.extractLsb' 16 16

/-- The command `i` where the fields that R95 requires to be zero are (`ok`), else RESERVED_FIELD. -/
def checkFields (ok : Bool) (i : Instr) : Decoded :=
  if ok then .instr i else .reject .reservedField

/-- R96, the checks on the word alone, in its order: OP 8 to 15, then RSV, then the fields R95 constrains. -/
def decode (v : Word) : Decoded :=
  let alg := algField v
  let n := nField v
  if 8 ≤ (opField v).toNat then .reject .illegalCmd
  else if rsvField v ≠ 0 then .reject .reservedField
  else match (opField v).toNat with
    | 0 => checkFields (alg == 0 && n == 0) .nop
    | 1 => checkFields (n == 0) (.init alg)
    | 2 => checkFields (n == 0) (.hinit alg)
    | 3 => checkFields (alg == 0 && n == 0) .update
    | 4 => checkFields (alg == 0) (.final n)
    | 5 => checkFields (alg == 0 && n == 0) .hex
    | 6 => checkFields (alg == 0) (.unhex n)
    | _ => checkFields (alg == 0 && n == 0) .clear

/-- A command word from its fields, RSV zero (R91). -/
def commandWord (n : BitVec 8) (alg : BitVec 4) (op : BitVec 4) : Word := 0#16 ++ n ++ alg ++ op

/-- The word of a command (R99). -/
def encode : Instr → Word
  | .nop => commandWord 0 0 0
  | .init a => commandWord 0 a 1
  | .hinit a => commandWord 0 a 2
  | .update => commandWord 0 0 3
  | .final n => commandWord n 0 4
  | .hex => commandWord 0 0 5
  | .unhex n => commandWord n 0 6
  | .clear => commandWord 0 0 7

/-- The command that the decoder reads from the `nbits` low bits of `w`, the bits above being zero; none where it rejects.
Bit 0 of `w` is bit 0 of the one command word. -/
def decodeTableWord (nbits w : Nat) : Option Instr :=
  match decode (BitVec.ofNat 32 (w % 2 ^ nbits)) with
  | .instr i => some i
  | .reject _ => none

end Sys2Proof
end

