-- ==== Sys2Proof/Config.lean ====
section
/-!
DEFINITION. What the spec leaves open and never fixes (92_eei_decisions.md D34): free values, each an opaque constant with
no body, so that nothing proved about the model rests on a value of it.
-/
namespace Sys2Proof

/-- U1, U3 (10_state.md R44): the byte that a buffer offset holds after the `resets`-th reset, until something writes it.
One draw per reset and offset. Log entry 3. -/
opaque Config.unwritten (resets : Nat) (addr : Nat) : Byte

/-- U2 (20_memory.md R72): what a read of a busy-time-unspecified offset answers; `draw` makes each read a fresh value.
Log entry 2. -/
opaque Config.busyRead (draw : Nat) : Word

/-- U4 (70_reset_and_hazards.md R377): LATENCY of an accepted command, in turns of the machine, where the state's own
`latency` list names none. Log entry 1. -/
opaque Config.latency (draw : Nat) : Nat

end Sys2Proof
end

