-- ==== Sys2Proof/Machine/State.lean ====
section
/-!
DEFINITION. The state of the CORE (10_state.md), the environment that drives it, and the state after reset.
Bytes of the memory-mapped buffers live in `mem`; every other register is a field.
-/
namespace Sys2Proof.Machine

/-- PHASE (10_state.md R26). -/
inductive Phase where
  | idle
  | hash
  | hkey
  | hmsg
deriving DecidableEq, Repr

/-- The chaining state register file H[0..7], eight registers of 64 bits (10_state.md R21); also the value `Hv` that the
engine functions pass around (00_scope.md R13). -/
structure Chain where
  h0 : DWord
  h1 : DWord
  h2 : DWord
  h3 : DWord
  h4 : DWord
  h5 : DWord
  h6 : DWord
  h7 : DWord
deriving DecidableEq, Repr

/-- The bytes of the window's buffers (DIGEST, BUF, HEXOUT, HEXIN) that something has written since reset, by window offset,
offsets strictly rising. An offset that is not listed has been written by nothing since reset (log entry 4). -/
abbrev Memory := List Host.Cell

/-- What the outside of the CORE does next (20_memory.md R60, 30_encoding.md R100, 70_reset_and_hazards.md R370): a bus
transaction of any offset and size, the host's polling loop WAIT, or a level of the reset input. -/
inductive HostOp where
  | read (addr : BitVec 12) (size : Nat)
  | write (addr : BitVec 12) (size : Nat) (data : Word)
  | wait
  | resetPin (asserted : Bool)
deriving DecidableEq, Repr

/-- The CORE's answer to a bus transaction (20_memory.md R60). -/
inductive BusAnswer where
  | readOk (data : Word)
  | writeOk
  | busErr
deriving DecidableEq, Repr

/-- The environment of the CORE: the model's own state, none of it a register of the CORE (log entries 1, 2, 3 and 8). -/
structure Env where
  /-- the host's operations that have not been issued yet, next first -/
  host : List HostOp
  /-- the bus answers given so far, newest first -/
  answers : List BusAnswer
  /-- LATENCY of the commands that will be accepted, next first; when it runs out, free values -/
  latency : List Nat
  /-- turns left before the accepted command completes; it means something only while BUSY -/
  countdown : Nat
  /-- how many fresh free values have been drawn -/
  draws : Nat
  /-- how many resets have been released; it picks the free contents of the buffers -/
  resets : Nat
deriving DecidableEq, Repr

/-- The state of the machine. -/
structure State where
  /-- STATUS.BUSY (R28) -/
  busy : Bool
  /-- STATUS.DONE (R29) -/
  done : Bool
  /-- STATUS.ERR (R30) -/
  err : Bool
  /-- STATUS.OVR (R31) -/
  ovr : Bool
  /-- STATUS.ERRCODE (R30) -/
  errCode : BitVec 4
  /-- ALG (R24) -/
  alg : Alg
  /-- PHASE (R26) -/
  phase : Phase
  /-- DLEN (R25) -/
  dlen : BitVec 7
  /-- H[0..7] (R21) -/
  h : Chain
  /-- LEN (R23) -/
  len : BitVec 128
  /-- K0, hidden (R38) -/
  k0 : Vector Byte 128
  /-- PEND, hidden (R39) -/
  pend : Word
  /-- BUF, HEXIN, HEXOUT and DIGEST (R34 to R37) -/
  mem : Memory
  /-- the reset input is asserted (70_reset_and_hazards.md R370) -/
  resetHeld : Bool
  /-- the environment: the model's own -/
  env : Env
deriving DecidableEq, Repr

/-- Why the machine has no step. -/
inductive Fault where
  /-- The host issues a bus transaction while reset is asserted (70_reset_and_hazards.md R370: "a model gives such a
  transaction no step"; U5: stuck). Raised by `hostTurn`. Safe: the model stops. -/
  | busDuringReset
deriving DecidableEq, Repr

/-- Why an instruction has no meaning. -/
inductive Refusal where
  /-- An instruction the model gives no meaning yet, by its mnemonic: no arm of `exec` answers it. Safe: the model stops. -/
  | notModelled (mnemonic : String)
deriving DecidableEq, Repr

/-- H[0..7] all zero. -/
def Chain.zero : Chain := ⟨0, 0, 0, 0, 0, 0, 0, 0⟩

/-- The environment at the start: nothing issued, nothing drawn (log entries 1, 2, 3 and 8). -/
def Env.start : Env :=
  { host := [], answers := [], latency := [], countdown := 0, draws := 0, resets := 0 }

/-- The machine right after reset (10_state.md R44). PEND is unspecified there: the model's zero (log entry 5). The
buffers are unspecified: nothing is listed, so each byte reads as its free draw (log entry 3). -/
def State.reset : State :=
  { busy := false, done := false, err := false, ovr := false, errCode := 0, alg := .md5, phase := .idle, dlen := 0,
    h := Chain.zero, len := 0, k0 := Vector.replicate 128 0, pend := 0, mem := [], resetHeld := false, env := Env.start }

end Sys2Proof.Machine
end

