-- ==== Sys2Proof/Machine/Operands.lean ====
section
/-!
DEFINITION. Operand forms: word rotations and shifts (00_scope.md R9), byte strings and byte orders (R10), the algorithm
descriptor table (R6), the algorithm field (30_encoding.md R93), hexadecimal characters (48_hex_converter.md R291, R293)
and the chaining registers by index.
-/
namespace Sys2Proof.Machine

/-! ## Word operators -/

/-- `rotl_n` of a w-bit word, for `n ≤ w` (R9; `rotl_0` is the identity). -/
def rotl {w : Nat} (x : BitVec w) (n : Nat) : BitVec w := (x <<< n) ||| (x >>> (w - n))

/-- `rotr_n` of a w-bit word: `rotl_{w-n}` (R9). -/
def rotr {w : Nat} (x : BitVec w) (n : Nat) : BitVec w := rotl x (w - n)

/-- `shr_n` of a w-bit word (R9). -/
def shr {w : Nat} (x : BitVec w) (n : Nat) : BitVec w := x >>> n

/-! ## Byte strings -/

/-- The value of a byte string, byte 0 least significant (R10, LE). -/
def leNat : List Byte → Nat
  | [] => 0
  | b :: bs => b.toNat + 256 * leNat bs

/-- `LE_w` (R10). -/
def leWord (w : Nat) (b : List Byte) : BitVec w := BitVec.ofNat w (leNat b)

/-- `BE_w` (R10). -/
def beWord (w : Nat) (b : List Byte) : BitVec w := BitVec.ofNat w (leNat b.reverse)

/-- `toLE_n` (R10). -/
def toLE : Nat → Nat → List Byte
  | 0, _ => []
  | n + 1, v => BitVec.ofNat 8 v :: toLE n (v / 256)

/-- `toBE_n` (R10). -/
def toBE (n v : Nat) : List Byte := (toLE n v).reverse

/-- `zeros(n)` (R10). -/
def zeros (n : Nat) : List Byte := List.replicate n 0

/-- `b XOR rep(x, len(b))` (R10). -/
def xorRep (x : Byte) (b : List Byte) : List Byte := b.map (· ^^^ x)

/-- Exactly `n` bytes: the first `n` of the string, zeros after its end. -/
def fit (n : Nat) (b : List Byte) : List Byte := b.take n ++ zeros (n - b.length)

theorem fit_length (n : Nat) (b : List Byte) : (fit n b).length = n := by
  simp [fit, zeros]; omega

/-- A value of K0: the byte string, right-padded with zeros to 128 bytes (49_hmac_wrapper.md R311, R312). -/
def keyOfBytes (b : List Byte) : Vector Byte 128 := ⟨⟨fit 128 b⟩, fit_length 128 b⟩

/-! ## Algorithm descriptors (R6) -/

/-- bs, the block size in bytes. -/
def blockSize : Alg → Nat
  | .md5 | .sha1 | .sha256 => 64
  | .sha384 | .sha512 => 128

/-- w, the word width in bits. -/
def wordWidth : Alg → Nat
  | .md5 | .sha1 | .sha256 => 32
  | .sha384 | .sha512 => 64

/-- nw, the number of state words. -/
def stateWords : Alg → Nat
  | .md5 => 4
  | .sha1 => 5
  | .sha256 | .sha384 | .sha512 => 8

/-- OL, the output length in bytes. -/
def outputLength : Alg → Nat
  | .md5 => 16
  | .sha1 => 20
  | .sha256 => 32
  | .sha384 => 48
  | .sha512 => 64

/-- LF, the size of the length field in bytes. -/
def lengthField : Alg → Nat
  | .md5 | .sha1 | .sha256 => 8
  | .sha384 | .sha512 => 16

/-- The algorithm of an ALG field (30_encoding.md R93); codes 5 to 15 name none. -/
def algOfCode (c : BitVec 4) : Option Alg :=
  match c.toNat with
  | 0 => some .md5
  | 1 => some .sha1
  | 2 => some .sha256
  | 3 => some .sha384
  | 4 => some .sha512
  | _ => none

/-! ## Chaining registers by index -/

/-- `H[i]`; there are eight. -/
def chainGet (c : Chain) (i : Nat) : DWord :=
  match i with
  | 0 => c.h0
  | 1 => c.h1
  | 2 => c.h2
  | 3 => c.h3
  | 4 => c.h4
  | 5 => c.h5
  | 6 => c.h6
  | 7 => c.h7
  | _ => 0

/-- Chaining registers from the 64-bit state words, the unused ones zero (10_state.md R22). -/
def chainOfDWords (l : List DWord) : Chain :=
  ⟨l.getD 0 0, l.getD 1 0, l.getD 2 0, l.getD 3 0, l.getD 4 0, l.getD 5 0, l.getD 6 0, l.getD 7 0⟩

/-- Chaining registers from 32-bit state words: bits 63:32 and the unused registers zero (10_state.md R22). -/
def chainOfWords (l : List Word) : Chain := chainOfDWords (l.map (BitVec.setWidth 64))

/-- The 32-bit state word j, `H[j][31:0]` (10_state.md R22). -/
def lowWord (c : Chain) (i : Nat) : Word := (chainGet c i).setWidth 32

/-! ## Hexadecimal characters -/

/-- `hexchar(v)` for a 4-bit value (48_hex_converter.md R291). -/
def hexChar (v : BitVec 4) : Byte :=
  if v.toNat ≤ 9 then BitVec.ofNat 8 (0x30 + v.toNat) else BitVec.ofNat 8 (0x41 + (v.toNat - 10))

/-- The two characters of a byte, high nibble first (48_hex_converter.md R290). -/
def hexPair (b : Byte) : List Byte := [hexChar (b.extractLsb' 4 4), hexChar (b.extractLsb' 0 4)]

/-- `ishex(c)` (48_hex_converter.md R293). -/
def isHex (c : Byte) : Bool :=
  let v := c.toNat
  (decide (0x30 ≤ v) && decide (v ≤ 0x39)) || (decide (0x41 ≤ v) && decide (v ≤ 0x46))
    || (decide (0x61 ≤ v) && decide (v ≤ 0x66))

/-- `hexval(c)` of a hex digit (48_hex_converter.md R293). -/
def hexVal (c : Byte) : Nat :=
  let v := c.toNat
  if v ≤ 0x39 then v - 0x30 else if v ≤ 0x46 then v - 0x41 + 10 else v - 0x61 + 10

/-- The bytes of a hex text: byte k is `hexval(c[2k]) * 16 + hexval(c[2k+1])` (48_hex_converter.md R292). -/
def unhexText : List Byte → List Byte
  | hi :: lo :: rest => BitVec.ofNat 8 (hexVal hi * 16 + hexVal lo) :: unhexText rest
  | _ => []

end Sys2Proof.Machine
end

