-- ==== Sys2Proof/Machine/Flags.lean ====
section
/-!
DEFINITION. The codes of the STATUS fields and the STATUS word (10_state.md R27, 60_exceptions.md R341). The CORE has no
other flags (10_state.md R43).
-/
namespace Sys2Proof.Machine

/-- ERRCODE of an error (60_exceptions.md R341). -/
def errCodeOf : CmdError → BitVec 4
  | .illegalCmd => 1
  | .reservedField => 2
  | .unknownAlgorithm => 3
  | .sequence => 4
  | .length => 5
  | .hexFormat => 6

/-- The code of an algorithm in the ALG register (00_scope.md R6, 10_state.md R24). -/
def algCode : Alg → BitVec 3
  | .md5 => 0
  | .sha1 => 1
  | .sha256 => 2
  | .sha384 => 3
  | .sha512 => 4

/-- The code of a phase (10_state.md R26). -/
def phaseCode : Phase → BitVec 2
  | .idle => 0
  | .hash => 1
  | .hkey => 2
  | .hmsg => 3

/-- The word at offset 0x004 (10_state.md R27): bits 31:23, 15:14 and 11 read 0. -/
def statusWord (s : State) : Word :=
  0#9 ++ s.dlen ++ 0#2 ++ phaseCode s.phase ++ 0#1 ++ algCode s.alg ++ s.errCode
    ++ BitVec.ofBool s.ovr ++ BitVec.ofBool s.err ++ BitVec.ofBool s.done ++ BitVec.ofBool s.busy

end Sys2Proof.Machine
end

