-- ==== Sys2Proof/Machine/Ops.lean ====
section
/-!
DEFINITION. The named operations over memory and registers: reading and writing buffer bytes, accepting a command
(70_reset_and_hazards.md R375), completing one (47_digest_commands.md R260), and raising an error (60_exceptions.md R342).
-/
namespace Sys2Proof.Machine

/-! ## The buffers' places in the window (20_memory.md R63) -/

/-- DIGEST, 64 bytes. -/
def digestBase : Nat := 0x080

/-- BUF, 128 bytes. -/
def bufBase : Nat := 0x100

/-- HEXOUT, 128 bytes. -/
def hexOutBase : Nat := 0x200

/-- HEXIN, 128 bytes. -/
def hexInBase : Nat := 0x280

/-- The offset is a byte of DIGEST, BUF, HEXOUT or HEXIN. -/
def isBufferAddr (a : Nat) : Bool :=
  (decide (0x080 ≤ a) && decide (a < 0x0C0)) || (decide (0x100 ≤ a) && decide (a < 0x180))
    || (decide (0x200 ≤ a) && decide (a < 0x300))

/-! ## Memory -/

/-- The canonical form: offsets strictly rising, each a buffer byte. An unlisted offset has no written value, so no entry
can equal it (log entry 4). -/
abbrev Memory.wf (m : Memory) : Prop :=
  m.Pairwise (fun x y => x.1 < y.1) ∧ ∀ c ∈ m, isBufferAddr c.1 = true

/-- The byte last written at an offset since reset, if any. -/
def Memory.find (m : Memory) (a : Nat) : Option Byte := m.lookup a

/-- The cells of a byte string placed at `base`. -/
def cellsAt : Nat → List Byte → Memory
  | _, [] => []
  | base, b :: bs => (base, b) :: cellsAt (base + 1) bs

/-- Writes the byte string at `base`, keeping offsets rising. -/
def Memory.store (m : Memory) (base : Nat) (b : List Byte) : Memory :=
  m.filter (fun c => decide (c.1 < base)) ++ cellsAt base b ++ m.filter (fun c => decide (base + b.length ≤ c.1))

/-- The byte a buffer offset holds: the one last written, or the free draw of the last reset (10_state.md R44). -/
def State.byteAt (s : State) (a : Nat) : Byte :=
  match Memory.find s.mem a with
  | some b => b
  | none => Config.unwritten s.env.resets a

/-- `n` bytes from a buffer offset on. -/
def State.bytesAt (s : State) (base n : Nat) : List Byte := (List.range n).map (fun k => s.byteAt (base + k))

/-- Writes buffer bytes. -/
def State.storeBytes (s : State) (base : Nat) (b : List Byte) : State := { s with mem := Memory.store s.mem base b }

/-- `BUF[0..n)` (R34). -/
def State.bufBytes (s : State) (n : Nat) : List Byte := s.bytesAt bufBase n

/-- `HEXIN[0..n)` (R35). -/
def State.hexInBytes (s : State) (n : Nat) : List Byte := s.bytesAt hexInBase n

/-- `DIGEST[0..n)` (R37). -/
def State.digestBytes (s : State) (n : Nat) : List Byte := s.bytesAt digestBase n

/-- `K0[0..n)` (R38). -/
def State.keyBytes (s : State) (n : Nat) : List Byte := s.k0.toList.take n

/-- `DIGEST <- d || zeros`, `DLEN <- OL` (47_digest_commands.md R265, 49_hmac_wrapper.md R314). -/
def State.setDigest (s : State) (a : Alg) (d : List Byte) : State :=
  { s.storeBytes digestBase (fit 64 d) with dlen := BitVec.ofNat 7 (outputLength a) }

/-- `LEN <- (LEN + 8*n) mod 2^128` (R23). -/
def State.addLen (s : State) (n : Nat) : State := { s with len := s.len + BitVec.ofNat 128 (8 * n) }

/-! ## The life of a command -/

/-- The latency of the command being accepted, in turns: the state's next one, or a free value (log entry 1). -/
def Env.drawLatency (e : Env) : Env :=
  match e.latency with
  | n :: rest => { e with latency := rest, countdown := n }
  | [] => { e with countdown := Config.latency e.draws, draws := e.draws + 1 }

/-- Acceptance (R375), which also clears the last command's error (10_state.md R30). -/
def State.accept (s : State) (v : Word) : State :=
  { s with pend := v, busy := true, done := false, err := false, errCode := 0, env := s.env.drawLatency }

/-- The end of every command: BUSY <- 0, DONE <- 1 (47_digest_commands.md R260). -/
def State.finish (s : State) : State := { s with busy := false, done := true }

/-- An error's whole effect and the command's end (60_exceptions.md R342): the CORE's counterpart of taking an exception.
H, LEN, ALG, DLEN, the buffers and OVR keep their values. -/
def State.raise (s : State) (e : CmdError) : State :=
  { s with phase := .idle, k0 := Vector.replicate 128 0, err := true, errCode := errCodeOf e,
           busy := false, done := true }

/-- A command's successful outcome: its own writes, `s`, and the end of the command, together (R380). -/
def succeed (s : State) : Host.Outcome State Fault Refusal := .next s.finish

/-- A command's failed outcome: none of its own writes, only the error's (R342). -/
def fail (s : State) (e : CmdError) : Host.Outcome State Fault Refusal := .next (s.raise e)

end Sys2Proof.Machine
end

