-- ==== Sys2Proof/Machine/Bus.lean ====
section
/-!
DEFINITION. The bus: the register map of the window, reads and writes (20_memory.md).
-/
namespace Sys2Proof.Machine

/-- A register, or an array of registers, of the window (R63). -/
inductive BusReg where
  | id
  | status
  | cmd
  | len
  | h
  | digest
  | buf
  | hexOut
  | hexIn
  | romMd5T
  | romSha256K
  | romSha512K
  | romSha1K
  | romMd5S
  | reserved
deriving DecidableEq, Repr

/-- A row of the register map: `size` bytes of the window from `base` on. -/
structure MapRow where
  base : Nat
  size : Nat
  reg : BusReg
deriving DecidableEq, Repr

/-- The register map (R63); every offset in none of its rows is reserved. -/
def busMap : List MapRow :=
  [⟨0x000, 0x004, .id⟩, ⟨0x004, 0x004, .status⟩, ⟨0x008, 0x004, .cmd⟩, ⟨0x010, 0x010, .len⟩, ⟨0x040, 0x040, .h⟩,
   ⟨0x080, 0x040, .digest⟩, ⟨0x100, 0x080, .buf⟩, ⟨0x200, 0x080, .hexOut⟩, ⟨0x280, 0x080, .hexIn⟩,
   ⟨0x400, 0x100, .romMd5T⟩, ⟨0x500, 0x100, .romSha256K⟩, ⟨0x600, 0x280, .romSha512K⟩, ⟨0x880, 0x010, .romSha1K⟩,
   ⟨0x900, 0x100, .romMd5S⟩]

/-- The register at an offset, and how many bytes after its base the offset is (R63). -/
def regAt (a : Nat) : BusReg × Nat :=
  match busMap.find? (fun r => decide (r.base ≤ a) && decide (a < r.base + r.size)) with
  | some r => (r.reg, a - r.base)
  | none => (.reserved, 0)

/-- ID (10_state.md R32). -/
def idWord : Word := 0x4A53071F

/-- The transaction is admitted: 4 bytes at a 4-byte-aligned offset (R62). -/
def admitted (addr : BitVec 12) (size : Nat) : Bool := decide (addr.toNat % 4 = 0) && decide (size = 4)

/-- The buffer word at an offset: four bytes, the lowest offset in bits 7:0 (R64). -/
def bufferWord (s : State) (a : Nat) : Word := leWord 32 (s.bytesAt a 4)

/-- What a register answers when it is defined, `off` bytes from its base, a multiple of 4 (R63 to R68). Registers wider
than 32 bits lie low word first (R65). -/
def regValue (s : State) (r : BusReg) (off : Nat) : Word :=
  match r with
  | .id => idWord
  | .status => statusWord s
  | .cmd => 0
  | .len => s.len.extractLsb' (8 * off) 32
  | .h => (chainGet s.h (off / 8)).extractLsb' (8 * (off % 8)) 32
  | .digest => bufferWord s (digestBase + off)
  | .buf => bufferWord s (bufBase + off)
  | .hexOut => bufferWord s (hexOutBase + off)
  | .hexIn => bufferWord s (hexInBase + off)
  | .romMd5T => romMd5T.getD (off / 4) 0
  | .romSha256K => romSha256K.getD (off / 4) 0
  | .romSha512K => (romSha512K.getD (off / 8) 0).extractLsb' (8 * (off % 8)) 32
  | .romSha1K => romSha1K.getD (off / 4) 0
  | .romMd5S => BitVec.ofNat 32 (romMd5S.getD (off / 4) 0)
  | .reserved => 0

/-- The registers whose busy-time reads are unspecified (R72). -/
def freeWhileBusy : BusReg → Bool
  | .len | .h | .digest | .buf | .hexOut | .hexIn => true
  | .id | .status | .cmd | .romMd5T | .romSha256K | .romSha512K | .romSha1K | .romMd5S | .reserved => false

/-- The read's value is free: a command is running and R72 leaves the register's value open. -/
def readIsFree (s : State) (addr : BitVec 12) : Bool := s.busy && freeWhileBusy (regAt addr.toNat).1

/-- The word an admitted read answers (R69, R72). -/
def readWord (s : State) (addr : BitVec 12) : Word :=
  if readIsFree s addr then Config.busyRead s.env.draws
  else regValue s (regAt addr.toNat).1 (regAt addr.toNat).2

/-- The answer is given to the host. -/
def State.answer (s : State) (b : BusAnswer) : State := { s with env := { s.env with answers := b :: s.env.answers } }

/-- A read whose value is free uses up one free value (log entry 2). -/
def State.countDraw (s : State) (addr : BitVec 12) : State :=
  if readIsFree s addr then { s with env := { s.env with draws := s.env.draws + 1 } } else s

/-- `Read(addr, size)` (R60, R62, R69). -/
def busRead (s : State) (addr : BitVec 12) (size : Nat) : State :=
  if admitted addr size then (s.countDraw addr).answer (.readOk (readWord s addr)) else s.answer .busErr

/-- A write that is dropped because the engine is busy (R71, 70_reset_and_hazards.md R376). -/
def State.overrun (s : State) : State := { s with ovr := true }

/-- A write of the four bytes of a buffer word, the lowest offset from bits 7:0 (R64), unless a command runs (R71). -/
def State.writeBuffer (s : State) (a : Nat) (v : Word) : State :=
  if s.busy then s.overrun else s.storeBytes a (toLE 4 v.toNat)

/-- An admitted write's effect (R64, R66, R67, R70, R71, 70_reset_and_hazards.md R375, R376). -/
def writeReg (s : State) (r : BusReg) (off : Nat) (v : Word) : State :=
  match r with
  | .cmd => if s.busy then s.overrun else s.accept v
  | .buf => s.writeBuffer (bufBase + off) v
  | .hexIn => s.writeBuffer (hexInBase + off) v
  | .id | .status | .len | .h | .digest | .hexOut | .romMd5T | .romSha256K | .romSha512K | .romSha1K | .romMd5S
  | .reserved => s

/-- `Write(addr, size, data)` (R60, R62). -/
def busWrite (s : State) (addr : BitVec 12) (size : Nat) (v : Word) : State :=
  if admitted addr size then (writeReg s (regAt addr.toNat).1 (regAt addr.toNat).2 v).answer .writeOk else s.answer .busErr

end Sys2Proof.Machine
end

