-- ==== Sys2Proof/Machine/Hex.lean ====
section
/-!
DEFINITION. The hex converter commands HEX and UNHEX (48_hex_converter.md).
-/
namespace Sys2Proof.Machine

/-- HEX (R290): the uppercase text of DIGEST[0..DLEN), zeros to the end of HEXOUT. -/
def execHex (s : State) : Host.Outcome State Fault Refusal :=
  succeed (s.storeBytes hexOutBase (fit 128 ((s.digestBytes s.dlen.toNat).flatMap hexPair)))

/-- UNHEX (R292, R294): LENGTH before HEX_FORMAT; characters from 2n on are not examined. -/
def execUnhex (n : BitVec 8) (s : State) : Host.Outcome State Fault Refusal :=
  if 64 < n.toNat then fail s .length
  else if (s.hexInBytes (2 * n.toNat)).all isHex then
    succeed (s.storeBytes bufBase (unhexText (s.hexInBytes (2 * n.toNat))))
  else fail s .hexFormat

end Sys2Proof.Machine
end

