-- ==== Sys2Proof/Machine/Schedule.lean ====
section
/-!
DEFINITION. The message schedule expander (41_schedule_expander.md) and the reading of a block as words
(40_word_ops_and_padding.md R121). A schedule is a list, W[0] first.
-/
namespace Sys2Proof.Machine

/-- R121 for MD5: sixteen little-endian words. -/
def wordsLE (block : List Byte) : List Word :=
  (List.range 16).map (fun j => leWord 32 ((block.drop (4 * j)).take 4))

/-- R121 for the SHA family: sixteen big-endian words of w bits. -/
def wordsBE (w : Nat) (block : List Byte) : List (BitVec w) :=
  (List.range 16).map (fun j => beWord w ((block.drop (w / 8 * j)).take (w / 8)))

/-- Appends `n` words by a recurrence. The list is newest first: `next` finds W[t-k] at index k-1. -/
def extendSchedule {w : Nat} (next : List (BitVec w) → BitVec w) : Nat → List (BitVec w) → List (BitVec w)
  | 0, l => l
  | n + 1, l => extendSchedule next n (next l :: l)

/-- The schedule of `16 + n` words from the block's sixteen. -/
def scheduleOf {w : Nat} (next : List (BitVec w) → BitVec w) (n : Nat) (x : List (BitVec w)) : List (BitVec w) :=
  (extendSchedule next n x.reverse).reverse

/-- `W[t-k]` of the newest-first list. -/
def back {w : Nat} (l : List (BitVec w)) (k : Nat) : BitVec w := l.getD (k - 1) 0

/-- MD5's message word index g(i) (R141). -/
def md5Index (i : Nat) : Nat :=
  if i < 16 then i
  else if i < 32 then (5 * i + 1) % 16
  else if i < 48 then (3 * i + 5) % 16
  else (7 * i) % 16

/-- R141: `W[i] = X[g(i)]`, 64 words. -/
def expandMd5 (block : List Byte) : List Word :=
  (List.range 64).map (fun i => (wordsLE block).getD (md5Index i) 0)

/-- R142, the recurrence of SHA-1. -/
def nextSha1 (l : List Word) : Word := rotl (back l 3 ^^^ back l 8 ^^^ back l 14 ^^^ back l 16) 1

/-- R142: 80 words. -/
def expandSha1 (block : List Byte) : List Word := scheduleOf nextSha1 64 (wordsBE 32 block)

/-- R143. -/
def smallSigma0_256 (x : Word) : Word := rotr x 7 ^^^ rotr x 18 ^^^ shr x 3

/-- R143. -/
def smallSigma1_256 (x : Word) : Word := rotr x 17 ^^^ rotr x 19 ^^^ shr x 10

/-- R143, the recurrence of SHA-256. -/
def nextSha256 (l : List Word) : Word :=
  smallSigma1_256 (back l 2) + back l 7 + smallSigma0_256 (back l 15) + back l 16

/-- R143: 64 words. -/
def expandSha256 (block : List Byte) : List Word := scheduleOf nextSha256 48 (wordsBE 32 block)

/-- R144. -/
def smallSigma0_512 (x : DWord) : DWord := rotr x 1 ^^^ rotr x 8 ^^^ shr x 7

/-- R144. -/
def smallSigma1_512 (x : DWord) : DWord := rotr x 19 ^^^ rotr x 61 ^^^ shr x 6

/-- R144, the recurrence of SHA-384 and SHA-512. -/
def nextSha512 (l : List DWord) : DWord :=
  smallSigma1_512 (back l 2) + back l 7 + smallSigma0_512 (back l 15) + back l 16

/-- R144: 80 words. -/
def expandSha512 (block : List Byte) : List DWord := scheduleOf nextSha512 64 (wordsBE 64 block)

end Sys2Proof.Machine
end

