-- ==== Sys2Proof/Machine/Md5.lean ====
section
/-!
DEFINITION. The MD5 compression engine (42_md5_engine.md).
-/
namespace Sys2Proof.Machine

/-- The working variables (R160). -/
structure Md5Vars where
  a : Word
  b : Word
  c : Word
  d : Word
deriving DecidableEq, Repr

/-- The round function of round i (R161). -/
def md5F (i : Nat) (b c d : Word) : Word :=
  if i < 16 then (b &&& c) ||| (~~~b &&& d)
  else if i < 32 then (b &&& d) ||| (c &&& ~~~d)
  else if i < 48 then b ^^^ c ^^^ d
  else c ^^^ (b ||| ~~~d)

/-- One round (R160) with schedule word `w`. -/
def md5Round (v : Md5Vars) (i : Nat) (w : Word) : Md5Vars :=
  { a := v.d
    b := v.b + rotl (v.a + md5F i v.b v.c v.d + romMd5T.getD i 0 + w) (romMd5S.getD i 0)
    c := v.b
    d := v.c }

/-- The first `n` rounds on a block (R160). -/
def md5Rounds (n : Nat) (hv : Chain) (block : List Byte) : Md5Vars :=
  (List.range n).foldl (fun v i => md5Round v i ((expandMd5 block).getD i 0))
    ⟨lowWord hv 0, lowWord hv 1, lowWord hv 2, lowWord hv 3⟩

/-- `Compress(MD5, Hv, block)` (R160). -/
def compressMd5 (hv : Chain) (block : List Byte) : Chain :=
  let v := md5Rounds 64 hv block
  chainOfWords [lowWord hv 0 + v.a, lowWord hv 1 + v.b, lowWord hv 2 + v.c, lowWord hv 3 + v.d]

end Sys2Proof.Machine
end

