-- ==== Sys2Proof/Machine/Sha1.lean ====
section
/-!
DEFINITION. The SHA-1 compression engine (43_sha1_engine.md), and the functions Ch and Maj it shares with SHA-2.
-/
namespace Sys2Proof.Machine

/-- `Ch(x, y, z)` (43_sha1_engine.md R181, 44_sha256_engine.md R201, 45_sha512_core.md R221). -/
def ch {w : Nat} (x y z : BitVec w) : BitVec w := (x &&& y) ^^^ (~~~x &&& z)

/-- `Maj(x, y, z)` (R181, R201, R221). -/
def maj {w : Nat} (x y z : BitVec w) : BitVec w := (x &&& y) ^^^ (x &&& z) ^^^ (y &&& z)

/-- The working variables (R180). -/
structure Sha1Vars where
  a : Word
  b : Word
  c : Word
  d : Word
  e : Word
deriving DecidableEq, Repr

/-- The function of round t (R181). -/
def sha1F (t : Nat) (b c d : Word) : Word :=
  if t < 20 then ch b c d
  else if t < 40 then b ^^^ c ^^^ d
  else if t < 60 then maj b c d
  else b ^^^ c ^^^ d

/-- The constant of round t: one per phase of 20 rounds (R181). -/
def sha1K (t : Nat) : Word := romSha1K.getD (t / 20) 0

/-- One round (R180) with schedule word `w`. -/
def sha1Round (v : Sha1Vars) (t : Nat) (w : Word) : Sha1Vars :=
  { a := rotl v.a 5 + sha1F t v.b v.c v.d + v.e + sha1K t + w
    b := v.a
    c := rotl v.b 30
    d := v.c
    e := v.d }

/-- The first `n` rounds on a block (R180). -/
def sha1Rounds (n : Nat) (hv : Chain) (block : List Byte) : Sha1Vars :=
  (List.range n).foldl (fun v t => sha1Round v t ((expandSha1 block).getD t 0))
    ⟨lowWord hv 0, lowWord hv 1, lowWord hv 2, lowWord hv 3, lowWord hv 4⟩

/-- `Compress(SHA-1, Hv, block)` (R180). -/
def compressSha1 (hv : Chain) (block : List Byte) : Chain :=
  let v := sha1Rounds 80 hv block
  chainOfWords
    [lowWord hv 0 + v.a, lowWord hv 1 + v.b, lowWord hv 2 + v.c, lowWord hv 3 + v.d, lowWord hv 4 + v.e]

end Sys2Proof.Machine
end

