-- ==== Sys2Proof/Machine/Sha2.lean ====
section
/-!
DEFINITION. The SHA-256 compression engine (44_sha256_engine.md) and the 64-bit core of SHA-384 and SHA-512
(45_sha512_core.md). Their round is one formula (R200, R220), with functions and constants of their own.
-/
namespace Sys2Proof.Machine

/-- The working variables a to h at word width w (R200, R220). -/
structure Sha2Vars (w : Nat) where
  a : BitVec w
  b : BitVec w
  c : BitVec w
  d : BitVec w
  e : BitVec w
  f : BitVec w
  g : BitVec w
  h : BitVec w
deriving DecidableEq, Repr

/-- R201. -/
def bigSigma0_256 (x : Word) : Word := rotr x 2 ^^^ rotr x 13 ^^^ rotr x 22

/-- R201. -/
def bigSigma1_256 (x : Word) : Word := rotr x 6 ^^^ rotr x 11 ^^^ rotr x 25

/-- R221. -/
def bigSigma0_512 (x : DWord) : DWord := rotr x 28 ^^^ rotr x 34 ^^^ rotr x 39

/-- R221. -/
def bigSigma1_512 (x : DWord) : DWord := rotr x 14 ^^^ rotr x 18 ^^^ rotr x 41

/-- One round (R200, R220) from its two function values: `s1 = Sigma1(e)`, `s0 = Sigma0(a)`, constant `k`, schedule
word `w'`. -/
def sha2Round {w : Nat} (s0 s1 : BitVec w) (v : Sha2Vars w) (k w' : BitVec w) : Sha2Vars w :=
  let t1 := v.h + s1 + ch v.e v.f v.g + k + w'
  let t2 := s0 + maj v.a v.b v.c
  { a := t1 + t2, b := v.a, c := v.b, d := v.c, e := v.d + t1, f := v.e, g := v.f, h := v.g }

/-- The first `n` rounds of SHA-256 on a block (R200). -/
def sha256Rounds (n : Nat) (hv : Chain) (block : List Byte) : Sha2Vars 32 :=
  (List.range n).foldl
    (fun v t => sha2Round (bigSigma0_256 v.a) (bigSigma1_256 v.e) v (romSha256K.getD t 0) ((expandSha256 block).getD t 0))
    ⟨lowWord hv 0, lowWord hv 1, lowWord hv 2, lowWord hv 3, lowWord hv 4, lowWord hv 5, lowWord hv 6, lowWord hv 7⟩

/-- `Compress(SHA-256, Hv, block)` (R200). -/
def compressSha256 (hv : Chain) (block : List Byte) : Chain :=
  let v := sha256Rounds 64 hv block
  chainOfWords
    [lowWord hv 0 + v.a, lowWord hv 1 + v.b, lowWord hv 2 + v.c, lowWord hv 3 + v.d,
     lowWord hv 4 + v.e, lowWord hv 5 + v.f, lowWord hv 6 + v.g, lowWord hv 7 + v.h]

/-- The first `n` rounds of the 64-bit core on a block (R220). -/
def sha512Rounds (n : Nat) (hv : Chain) (block : List Byte) : Sha2Vars 64 :=
  (List.range n).foldl
    (fun v t => sha2Round (bigSigma0_512 v.a) (bigSigma1_512 v.e) v (romSha512K.getD t 0) ((expandSha512 block).getD t 0))
    ⟨hv.h0, hv.h1, hv.h2, hv.h3, hv.h4, hv.h5, hv.h6, hv.h7⟩

/-- `Compress(SHA-512, Hv, block)`, the same function as `Compress(SHA-384, Hv, block)` (R220). -/
def compressSha512 (hv : Chain) (block : List Byte) : Chain :=
  let v := sha512Rounds 80 hv block
  chainOfDWords
    [hv.h0 + v.a, hv.h1 + v.b, hv.h2 + v.c, hv.h3 + v.d, hv.h4 + v.e, hv.h5 + v.f, hv.h6 + v.g, hv.h7 + v.h]

end Sys2Proof.Machine
end

