-- ==== Sys2Proof/Machine/Padding.lean ====
section
/-!
DEFINITION. What every digest engine shares (40_word_ops_and_padding.md): compression by algorithm, padding, finishing a
message, serialising the state words, and the whole digest and HMAC of a byte string as functions.
-/
namespace Sys2Proof.Machine

/-- `Compress(alg, Hv, block)` (R128). -/
def compress : Alg → Chain → List Byte → Chain
  | .md5 => compressMd5
  | .sha1 => compressSha1
  | .sha256 => compressSha256
  | .sha384 => compressSha512
  | .sha512 => compressSha512

/-- The length field of the padding: little-endian for MD5, big-endian for the SHA family (R122, R124). -/
def lengthBytes (a : Alg) (totalBits : Nat) : List Byte :=
  match a with
  | .md5 => toLE 8 (totalBits % 2 ^ 64)
  | .sha1 | .sha256 => toBE 8 (totalBits % 2 ^ 64)
  | .sha384 | .sha512 => toBE 16 (totalBits % 2 ^ 128)

/-- The number of zero bytes for a tail of `n` bytes (R122). -/
def padZeros (a : Alg) (n : Nat) : Nat :=
  (blockSize a - (n + 1 + lengthField a) % blockSize a) % blockSize a

/-- `Pad(alg, total_bits, tail)` (R122). -/
def pad (a : Alg) (totalBits : Nat) (tail : List Byte) : List Byte :=
  tail ++ [0x80] ++ zeros (padZeros a tail.length) ++ lengthBytes a totalBits

/-- `Finish(alg, Hv, LEN, tail)` (R125). -/
def finishHash (a : Alg) (hv : Chain) (len : Nat) (tail : List Byte) : Chain :=
  let p := pad a ((len + 8 * tail.length) % 2 ^ 128) tail
  let h1 := compress a hv (p.take (blockSize a))
  if p.length = 2 * blockSize a then compress a h1 (p.drop (blockSize a)) else h1

/-- `Serialize(alg, Hv)` (R126). -/
def serialize (a : Alg) (hv : Chain) : List Byte :=
  match a with
  | .md5 => (List.range 4).flatMap (fun j => toLE 4 (lowWord hv j).toNat)
  | .sha1 => (List.range 5).flatMap (fun j => toBE 4 (lowWord hv j).toNat)
  | .sha256 => (List.range 8).flatMap (fun j => toBE 4 (lowWord hv j).toNat)
  | .sha384 => (List.range 6).flatMap (fun j => toBE 8 (chainGet hv j).toNat)
  | .sha512 => (List.range 8).flatMap (fun j => toBE 8 (chainGet hv j).toNat)

/-- The chaining value after the first `k` blocks of `m`, from `hv` (R127). -/
def absorb (a : Alg) (hv : Chain) : Nat → List Byte → Chain
  | 0, _ => hv
  | k + 1, m => absorb a (compress a hv (m.take (blockSize a))) k (m.drop (blockSize a))

/-- `Digest(alg, m)` (R127). -/
def digest (a : Alg) (m : List Byte) : List Byte :=
  let k := m.length / blockSize a
  serialize a (finishHash a (absorb a (iv a) k m) (8 * blockSize a * k % 2 ^ 128) (m.drop (k * blockSize a)))

/-- The block-size key K of HMAC: the key, or its digest when it is longer than a block, zeros after it
(49_hmac_wrapper.md R317). -/
def hmacKey (a : Alg) (key : List Byte) : List Byte :=
  fit (blockSize a) (if blockSize a < key.length then digest a key else key)

/-- HMAC of a message under a key (49_hmac_wrapper.md R317). -/
def hmac (a : Alg) (key msg : List Byte) : List Byte :=
  digest a (xorRep 0x5c (hmacKey a key) ++ digest a (xorRep 0x36 (hmacKey a key) ++ msg))

end Sys2Proof.Machine
end

