-- ==== Sys2Proof/Machine/Hmac.lean ====
section
/-!
DEFINITION. The HMAC generic wrapper (49_hmac_wrapper.md): HINIT, and what UPDATE and FINAL do in phases HKEY and HMSG.
-/
namespace Sys2Proof.Machine

/-- INIT's and HINIT's writes (47_digest_commands.md R262, 49_hmac_wrapper.md R310), which differ in the phase alone. -/
def State.startSession (s : State) (a : Alg) (p : Phase) : State :=
  { s with alg := a, h := iv a, len := 0, k0 := Vector.replicate 128 0, phase := p }

/-- UPDATE's writes in HASH and HMSG (47_digest_commands.md R263, 49_hmac_wrapper.md R313): one full block of BUF. -/
def State.absorbBlock (s : State) : State :=
  { s with h := compress s.alg s.h (s.bufBytes (blockSize s.alg)) }.addLen (blockSize s.alg)

/-- UPDATE's writes in HKEY (R311): the first block of the key is also kept raw. -/
def State.absorbKeyBlock (s : State) : State :=
  if s.len = 0 then { s with k0 := keyOfBytes (s.bufBytes (blockSize s.alg)) }.absorbBlock else s.absorbBlock

/-- K0 at the end of the key (R312, steps 2 and 3), with `n` key bytes left in BUF. -/
def State.finalKey (s : State) (n : Nat) : Vector Byte 128 :=
  if s.len.toNat / 8 + n ≤ blockSize s.alg then
    if s.len = 0 then keyOfBytes (s.bufBytes n) else s.k0
  else keyOfBytes (serialize s.alg (finishHash s.alg s.h s.len.toNat (s.bufBytes n)))

/-- FINAL's writes in HKEY (R312): derive K0, absorb the inner pad block. -/
def State.endKey (s : State) (n : Nat) : State :=
  let bs := blockSize s.alg
  let t := { s with k0 := s.finalKey n }
  { t with h := compress s.alg (iv s.alg) (xorRep 0x36 (t.keyBytes bs)), len := BitVec.ofNat 128 (8 * bs), phase := .hmsg }

/-- The outer chaining value of FINAL in HMSG (R314). The inner digest is passed on as raw bytes (R315). -/
def State.outerHash (s : State) (n : Nat) : Chain :=
  let bs := blockSize s.alg
  let inner := serialize s.alg (finishHash s.alg s.h s.len.toNat (s.bufBytes n))
  finishHash s.alg (compress s.alg (iv s.alg) (xorRep 0x5c (s.keyBytes bs))) (8 * bs) inner

/-- FINAL's writes in HMSG (R314). -/
def State.endHmac (s : State) (n : Nat) : State :=
  let ho := s.outerHash n
  { s.setDigest s.alg (serialize s.alg ho) with
      h := ho, len := BitVec.ofNat 128 (8 * (blockSize s.alg + outputLength s.alg)),
      k0 := Vector.replicate 128 0, phase := .idle }

/-- HINIT (R310). -/
def execHinit (code : BitVec 4) (s : State) : Host.Outcome State Fault Refusal :=
  match algOfCode code with
  | some a => succeed (s.startSession a .hkey)
  | none => fail s .unknownAlgorithm

end Sys2Proof.Machine
end

