-- ==== Sys2Proof/Machine/Session.lean ====
section
/-!
DEFINITION. The digest session commands NOP, INIT, UPDATE, FINAL and CLEAR (47_digest_commands.md).
-/
namespace Sys2Proof.Machine

/-- NOP (R261): nothing but the command's end. -/
def execNop (s : State) : Host.Outcome State Fault Refusal := succeed s

/-- INIT (R262). -/
def execInit (code : BitVec 4) (s : State) : Host.Outcome State Fault Refusal :=
  match algOfCode code with
  | some a => succeed (s.startSession a .hash)
  | none => fail s .unknownAlgorithm

/-- UPDATE, by phase (R263, R264, 49_hmac_wrapper.md R311, R313). -/
def execUpdate (s : State) : Host.Outcome State Fault Refusal :=
  match s.phase with
  | .idle => fail s .sequence
  | .hash => succeed s.absorbBlock
  | .hkey => succeed s.absorbKeyBlock
  | .hmsg => succeed s.absorbBlock

/-- FINAL's writes in HASH (R265). -/
def State.endDigest (s : State) (n : Nat) : State :=
  let hf := finishHash s.alg s.h s.len.toNat (s.bufBytes n)
  { (s.setDigest s.alg (serialize s.alg hf)).addLen n with h := hf, phase := .idle }

/-- FINAL with `n` bytes admitted, by phase: R265, 49_hmac_wrapper.md R312, R314. -/
def State.finalWrites (s : State) (n : Nat) : State :=
  match s.phase with
  | .hkey => s.endKey n
  | .hmsg => s.endHmac n
  | _ => s.endDigest n

/-- FINAL (R265, R266): SEQUENCE before LENGTH (30_encoding.md R96). -/
def execFinal (n : BitVec 8) (s : State) : Host.Outcome State Fault Refusal :=
  if s.phase = .idle then fail s .sequence
  else if blockSize s.alg ≤ n.toNat then fail s .length
  else succeed (s.finalWrites n.toNat)

/-- The four buffers zero (R267). -/
def State.zeroBuffers (s : State) : State :=
  (((s.storeBytes digestBase (zeros 64)).storeBytes bufBase (zeros 128)).storeBytes hexOutBase (zeros 128)).storeBytes
    hexInBase (zeros 128)

/-- CLEAR (R267). -/
def execClear (s : State) : Host.Outcome State Fault Refusal :=
  succeed { s.zeroBuffers with
    h := Chain.zero, len := 0, alg := .md5, phase := .idle, dlen := 0, k0 := Vector.replicate 128 0, ovr := false }

end Sys2Proof.Machine
end

