-- ==== Sys2Proof/Machine/Dispatch.lean ====
section
/-!
DEFINITION. The meaning of each command: one arm per constructor of `Instr`.
-/
namespace Sys2Proof.Machine

def exec (i : Instr) (s : State) : Host.Outcome State Fault Refusal :=
  match i with
  | .nop => Sys2Proof.Machine.execNop s
  | .init alg => Sys2Proof.Machine.execInit alg s
  | .hinit alg => Sys2Proof.Machine.execHinit alg s
  | .update => Sys2Proof.Machine.execUpdate s
  | .final n => Sys2Proof.Machine.execFinal n s
  | .hex => Sys2Proof.Machine.execHex s
  | .unhex n => Sys2Proof.Machine.execUnhex n s
  | .clear => Sys2Proof.Machine.execClear s

end Sys2Proof.Machine
end

