-- ==== Sys2Proof/Machine/Agents.lean ====
section
/-!
DEFINITION. The agents (10_state.md R20): the engine's one step, the host's next operation, and the reset input
(70_reset_and_hazards.md R370 to R372, R378).
-/
namespace Sys2Proof.Machine

/-- The engine's step `complete` for the command in PEND (47_digest_commands.md R260): a word that does not decode ends in
its error, a command ends as its meaning says. -/
def engineStep (s : State) : Host.Outcome State Fault Refusal :=
  match decode s.pend with
  | .instr i => exec i s
  | .reject e => fail s e

/-- The engine's step is due: a command is pending, its latency is over, and reset is not asserted (R378, R371). -/
def engineDue (s : State) : Bool := s.busy && !s.resetHeld && s.env.countdown == 0

/-- One turn of the accepted command's latency passes (R377, log entry 1). -/
def State.tick (s : State) : State :=
  if s.busy then { s with env := { s.env with countdown := s.env.countdown - 1 } } else s

/-- The reset input takes a level (R370, R371): asserted, the engine and the bus stand still; its release gives every
piece of state its reset value and draws the buffers' contents anew. The environment goes on. -/
def State.resetInput (s : State) (asserted : Bool) : State :=
  if asserted then { s with resetHeld := true }
  else if s.resetHeld then
    { State.reset with env := { s.env with countdown := 0, resets := s.env.resets + 1 } }
  else s

/-- The host's operations that are left. -/
def State.setHost (s : State) (ops : List HostOp) : State := { s with env := { s.env with host := ops } }

/-- The host's next operation, if it has one (20_memory.md R76, 30_encoding.md R100). A transaction while reset is asserted
has no step (R370). WAIT reads STATUS and stays the next operation while bit 0 reads 1. -/
def hostTurn (s : State) : Host.Outcome State Fault Refusal :=
  match s.env.host with
  | [] => .next s
  | .resetPin asserted :: rest => .next ((s.setHost rest).resetInput asserted)
  | .read addr size :: rest =>
    if s.resetHeld then .fault .busDuringReset else .next (busRead (s.setHost rest) addr size)
  | .write addr size data :: rest =>
    if s.resetHeld then .fault .busDuringReset else .next (busWrite (s.setHost rest) addr size data)
  | .wait :: rest =>
    if s.resetHeld then .fault .busDuringReset
    else .next (busRead (if s.busy then s else s.setHost rest) 0x004 4)

end Sys2Proof.Machine
end

