-- ==== Sys2Proof/Machine/Step.lean ====
section
/-!
DEFINITION. One step of the machine (70_reset_and_hazards.md R378): the engine completes the pending command when that is
due, otherwise the host takes its turn. There is no program counter and no fetch (10_state.md R42): the command in PEND is
what runs.
-/
namespace Sys2Proof.Machine

def step (s : State) : Host.Outcome State Fault Refusal :=
  if engineDue s then engineStep s else hostTurn s.tick

/-- `s` with the command word `w` accepted (70_reset_and_hazards.md R375) and its latency over, so that the next step
completes it: it stands for the host's write of the word to CMD (log entry 9). -/
def State.withFetchWord (s : State) (nbits w : Nat) : State :=
  { s with pend := BitVec.ofNat 32 (w % 2 ^ nbits), busy := true, done := false, err := false, errCode := 0,
           resetHeld := false, env := { s.env with countdown := 0 } }

end Sys2Proof.Machine
end

