-- ==== Sys2Proof/Safety.lean ====
section
/-!
DEFINITION. What the claims are stated in: the machine's invariant, the spec's own check order for a command word
(30_encoding.md R96), the formulas of the round constants (46_round_constant_rom.md R244, R246), and what a session in
progress has absorbed (40_word_ops_and_padding.md R127, 49_hmac_wrapper.md R317).
Nothing of the machine uses this file.
-/
namespace Sys2Proof.Machine

/-! ## Well-formed states -/

/-- The chaining registers are as the algorithm's width allows (10_state.md R22): those it does not use are zero, and a
32-bit algorithm leaves bits 63:32 zero. -/
def ChainFits (a : Alg) (c : Chain) : Prop :=
  ∀ i < 8, (stateWords a ≤ i → chainGet c i = 0) ∧ (wordWidth a = 32 → (chainGet c i).toNat < 2 ^ 32)

/-- What holds in every state a step can reach from reset. -/
structure State.Inv (s : State) : Prop where
  /-- the buffers' memory is in canonical form -/
  mem_wf : Memory.wf s.mem
  /-- R29: DONE and BUSY never hold together -/
  done_or_busy : ¬(s.done = true ∧ s.busy = true)
  /-- R30: ERR exactly when ERRCODE is not zero -/
  err_iff : s.err = true ↔ s.errCode ≠ 0
  /-- 60_exceptions.md R341: codes 7 to 15 are never reported -/
  err_range : s.errCode.toNat ≤ 6
  /-- R30: a running command has no error -/
  busy_no_err : s.busy = true → s.err = false
  /-- 60_exceptions.md R342, R348: an error has ended the session -/
  err_idle : s.err = true → s.phase = .idle
  /-- R25: the values DLEN can hold -/
  dlen_values : s.dlen.toNat ∈ [0, 16, 20, 32, 48, 64]
  /-- R22: the chaining registers' widths -/
  chain_fits : ChainFits s.alg s.h
  /-- 49_hmac_wrapper.md R316: no key outside an HMAC session -/
  no_key : s.phase = .idle ∨ s.phase = .hash → s.k0 = Vector.replicate 128 0
  /-- 49_hmac_wrapper.md R312: the key has at most a block of meaningful bytes -/
  key_fits : ∀ j, (hj : j < 128) → blockSize s.alg ≤ j → s.k0[j] = 0
  /-- R23: a session has absorbed whole blocks -/
  len_blocks : s.phase ≠ .idle → s.len.toNat % (8 * blockSize s.alg) = 0

/-- Every register of the CORE and every buffer byte is the same; only the environment may differ. -/
def SameCore (s t : State) : Prop := t = { s with env := t.env } ∧ t.env.resets = s.env.resets

/-- `n` steps of the machine, ending at the first that answers no next state. -/
def runSteps : Nat → State → Host.Outcome State Fault Refusal
  | 0, s => .next s
  | n + 1, s =>
    match step s with
    | .next t => runSteps n t
    | .fault f => .fault f
    | .refused r => .refused r

/-! ## What the host sees -/

/-- It is the host's turn, with `op` its next operation: reset is released, and the engine's step is not due. -/
structure HostActs (s : State) (op : HostOp) (rest : List HostOp) : Prop where
  turn : s.busy = true → s.env.countdown ≠ 0
  released : s.resetHeld = false
  next : s.env.host = op :: rest

/-- On the host's turn, `Read(a, 4)` answers the word `v` and changes no register and no buffer byte. -/
def ReadAnswers (s : State) (a : Nat) (v : Word) : Prop :=
  ∀ rest, HostActs s (.read (BitVec.ofNat 12 a) 4) rest →
    ∃ t, step s = .next t ∧ t.env.answers = .readOk v :: s.env.answers ∧ t.env.host = rest ∧ SameCore s t

/-- On the host's turn, `Write(a, 4, v)` answers OK, and the registers and buffers after it are those of `u`. -/
def WriteLeaves (s : State) (a : Nat) (v : Word) (u : State) : Prop :=
  ∀ rest, HostActs s (.write (BitVec.ofNat 12 a) 4 v) rest →
    ∃ t, step s = .next t ∧ t.env.answers = .writeOk :: s.env.answers ∧ t.env.host = rest ∧ SameCore u t

/-- The four bytes of a buffer from offset `a` on, the lowest in bits 7:0 (20_memory.md R64). -/
def laneWord (s : State) (a : Nat) : Word := s.byteAt (a + 3) ++ s.byteAt (a + 2) ++ s.byteAt (a + 1) ++ s.byteAt a

/-- The reserved offsets (20_memory.md R63). -/
def Reserved (a : Nat) : Prop :=
  a = 0x00C ∨ (0x020 ≤ a ∧ a ≤ 0x03C) ∨ (0x0C0 ≤ a ∧ a ≤ 0x0FC) ∨ (0x180 ≤ a ∧ a ≤ 0x1FC) ∨ (0x300 ≤ a ∧ a ≤ 0x3FC)
    ∨ (0x890 ≤ a ∧ a ≤ 0x8FC) ∨ (0xA00 ≤ a ∧ a ≤ 0xFFC)

/-- The offsets of LEN0-3, H and DIGEST, which only the engine writes, and of HEXOUT (20_memory.md R63). -/
def EngineWritten (a : Nat) : Prop :=
  (0x010 ≤ a ∧ a ≤ 0x01C) ∨ (0x040 ≤ a ∧ a ≤ 0x0BC) ∨ (0x200 ≤ a ∧ a ≤ 0x27C)

/-- The offsets of BUF and HEXIN (20_memory.md R63). -/
def HostBuffer (a : Nat) : Prop := (0x100 ≤ a ∧ a ≤ 0x17C) ∨ (0x280 ≤ a ∧ a ≤ 0x2FC)

/-- The offsets of the round constant ROM (20_memory.md R63). -/
def RomOffset (a : Nat) : Prop := (0x400 ≤ a ∧ a ≤ 0x88C) ∨ (0x900 ≤ a ∧ a ≤ 0x9FC)

/-! ## Where the round constants come from (46_round_constant_rom.md) -/

/-- The primes up to 409, in order: p_0 = 2 to p_79 (R244, R246). -/
def primes : List Nat :=
  (List.range 410).filter (fun p => decide (2 ≤ p) && (List.range p).all (fun d => decide (d < 2) || p % d != 0))

/-- `r` is `floor(cbrt(p) * 2^w)` (R244, R246). -/
abbrev IsCubeRoot (r p w : Nat) : Prop := r ^ 3 ≤ p * (2 ^ w) ^ 3 ∧ p * (2 ^ w) ^ 3 < (r + 1) ^ 3

/-! ## The spec's check order (30_encoding.md R96) -/

/-- The characters that are hex digits (48_hex_converter.md R293): '0' to '9', 'A' to 'F', 'a' to 'f'. -/
def hexDigits : List Byte :=
  [0x30, 0x31, 0x32, 0x33, 0x34, 0x35, 0x36, 0x37, 0x38, 0x39, 0x41, 0x42, 0x43, 0x44, 0x45, 0x46,
   0x61, 0x62, 0x63, 0x64, 0x65, 0x66]

/-- R96 line by line, on the word's number and the state at acceptance: the error the command raises, if any. -/
def firstError (v : Word) (s : State) : Option CmdError :=
  let op := v.toNat % 16
  let alg := v.toNat / 16 % 16
  let n := v.toNat / 256 % 256
  let rsv := v.toNat / 65536
  if op ≥ 8 then some .illegalCmd
  else if rsv ≠ 0 then some .reservedField
  else if (op = 0 ∨ op = 3 ∨ op = 5 ∨ op = 7) ∧ (alg ≠ 0 ∨ n ≠ 0) then some .reservedField
  else if (op = 1 ∨ op = 2) ∧ n ≠ 0 then some .reservedField
  else if (op = 4 ∨ op = 6) ∧ alg ≠ 0 then some .reservedField
  else if (op = 1 ∨ op = 2) ∧ alg > 4 then some .unknownAlgorithm
  else if (op = 3 ∨ op = 4) ∧ s.phase = .idle then some .sequence
  else if op = 4 ∧ n ≥ blockSize s.alg then some .length
  else if op = 6 ∧ n > 64 then some .length
  else if op = 6 ∧ ∃ j < 2 * n, s.byteAt (0x280 + j) ∉ hexDigits then some .hexFormat
  else none

/-! ## Sessions in progress -/

/-- The chaining value after every whole block of `m`, from IV(alg) (R127). -/
def chainOf (a : Alg) (m : List Byte) : Chain := absorb a (iv a) (m.length / blockSize a) m

/-- A digest session has absorbed exactly the byte string `m`, whole blocks of it. -/
structure DigestSession (s : State) (a : Alg) (m : List Byte) : Prop where
  phase : s.phase = .hash
  alg : s.alg = a
  blocks : m.length % blockSize a = 0
  chain : s.h = chainOf a m
  len : s.len = BitVec.ofNat 128 (8 * m.length)

/-- An HMAC session has absorbed exactly the bytes `k` of its key, whole blocks of it; the first block is in K0. -/
structure KeySession (s : State) (a : Alg) (k : List Byte) : Prop where
  phase : s.phase = .hkey
  alg : s.alg = a
  blocks : k.length % blockSize a = 0
  chain : s.h = chainOf a k
  len : s.len = BitVec.ofNat 128 (8 * k.length)
  raw : k ≠ [] → s.k0 = keyOfBytes (k.take (blockSize a))

/-- An HMAC session under `key` has absorbed exactly the bytes `m` of its message, whole blocks of it. -/
structure MessageSession (s : State) (a : Alg) (key m : List Byte) : Prop where
  phase : s.phase = .hmsg
  alg : s.alg = a
  blocks : m.length % blockSize a = 0
  keyReg : s.k0 = keyOfBytes (hmacKey a key)
  chain : s.h = chainOf a (xorRep 0x36 (hmacKey a key) ++ m)
  len : s.len = BitVec.ofNat 128 (8 * (blockSize a + m.length))

/-- DIGEST holds the byte string `d`, zeros after it, and DLEN its length (10_state.md R37). -/
def DigestIs (s : State) (d : List Byte) : Prop := s.digestBytes 64 = fit 64 d ∧ s.dlen.toNat = d.length

/-- What a session reads: two states that agree on it run the session alike (47_digest_commands.md R268). -/
structure SameSession (s t : State) : Prop where
  alg : s.alg = t.alg
  phase : s.phase = t.phase
  h : s.h = t.h
  len : s.len = t.len
  k0 : s.k0 = t.k0

end Sys2Proof.Machine
end

