-- ==== Sys2Proof/Certificates/Slice0/Obligations.lean ====
section
/-!
DEFINITION. The statements for the provers. Each docstring names the rule of spec/ it formalises.
-/
open Sys2Proof Sys2Proof.Machine

/-! ## Encoding -/

/-- R99 and R96: decoding the word of any command gives the command back, whatever its operand. -/
def Obligations.DecodeOfEncode : Prop := ∀ i : Instr, decode (encode i) = .instr i

/-- R97 and R98: a word that decodes to a command is exactly that command's word, so no bit of it is ignored. -/
def Obligations.DecodedWordIsItsEncoding : Prop := ∀ (v : Word) (i : Instr), decode v = .instr i → encode i = v

/-- R99: the words of the spec's assembler examples. -/
def Obligations.SpecWordsDecode : Prop :=
  decode 0x00000000 = .instr .nop ∧ decode 0x00000021 = .instr (.init 2) ∧ decode 0x00000304 = .instr (.final 3)
    ∧ decode 0x00000042 = .instr (.hinit 4) ∧ decode 0x00002006 = .instr (.unhex 32) ∧ decode 0x00000003 = .instr .update
    ∧ decode 0x00000005 = .instr .hex ∧ decode 0x00000007 = .instr .clear

/-- R95, and R97's reserved opcodes: OP 8 to 15 raises ILLEGAL_CMD whatever the other fields hold; non-zero RSV bits, and a
non-zero ALG or N where R95 requires 0, raise RESERVED_FIELD; a word that violates nothing decodes to a command. -/
def Obligations.ReservedSpaceRejected : Prop :=
  (∀ v : Word, 8 ≤ v.toNat % 16 → decode v = .reject .illegalCmd)
    ∧ (∀ v : Word, v.toNat % 16 < 8 → 2 ^ 16 ≤ v.toNat → decode v = .reject .reservedField)
    ∧ (∀ v : Word, v.toNat % 16 ∈ [0, 3, 5, 7] →
        if v.toNat < 16 then ∃ i, decode v = .instr i else decode v = .reject .reservedField)
    ∧ (∀ v : Word, v.toNat % 16 ∈ [1, 2] →
        if v.toNat < 2 ^ 8 then ∃ i, decode v = .instr i else decode v = .reject .reservedField)
    ∧ (∀ v : Word, v.toNat % 16 ∈ [4, 6] →
        if v.toNat < 2 ^ 16 ∧ v.toNat / 16 % 16 = 0 then ∃ i, decode v = .instr i
        else decode v = .reject .reservedField)

/-! ## The step -/

/-- R378, R260: when the engine's step is due and the word in PEND decodes to a command, the step is that command's
meaning; when the word does not decode, the step is its error. -/
def Obligations.StepRunsPendingCommand : Prop :=
  ∀ s : State, s.busy = true → s.resetHeld = false → s.env.countdown = 0 →
    (∀ i, decode s.pend = .instr i → step s = exec i s) ∧ (∀ e, decode s.pend = .reject e → step s = .next (s.raise e))

/-- The model's fetch (log entry 9): an instruction placed by `withFetchWord` is what the next step runs. -/
def Obligations.PlacedWordRunsNext : Prop :=
  ∀ (s : State) (nbits w : Nat) (i : Instr), decodeTableWord nbits w = some i →
    step (s.withFetchWord nbits w) = exec i (s.withFetchWord nbits w)

/-- R340 and R380: every command, in every state, completes in one step with BUSY cleared and DONE set; it never faults and
is never refused. The environment, PEND and the reset input are untouched. -/
def Obligations.EveryCommandCompletes : Prop :=
  ∀ (i : Instr) (s : State), ∃ t, exec i s = .next t ∧ t.busy = false ∧ t.done = true ∧ t.pend = s.pend
    ∧ t.resetHeld = s.resetHeld ∧ t.env = s.env

/-- R387 and R379: a pending command completes within its latency, whatever the host does meanwhile short of asserting
reset, and its outcome is that of the engine's step on the state at the start, but for OVR and the environment. That the
latency is `countdown` turns of the machine, so that `countdown + 1` steps are enough, is the model's choice (log entry 1). -/
def Obligations.PendingCommandCompletes : Prop :=
  ∀ s : State, s.busy = true → s.resetHeld = false → (∀ op ∈ s.env.host, op ≠ .resetPin true) →
    ∃ u t, engineStep s = .next u ∧ runSteps (s.env.countdown + 1) s = .next t
      ∧ t = { u with ovr := t.ovr, env := t.env } ∧ t.busy = false ∧ t.done = true ∧ t.env.resets = s.env.resets

/-! ## Errors -/

/-- R342 with the codes of R341: a command that raises an error ends the session, zeroes K0, sets ERR and ERRCODE, ends, and
changes nothing else. No command goes on from the aborted session. -/
def Obligations.ErrorEffect : Prop :=
  ∀ (s : State) (e : CmdError), firstError s.pend s = some e →
    ∃ t, engineStep s = .next t
      ∧ t = { s with
          phase := .idle, k0 := Vector.replicate 128 0, err := true,
          errCode := (match e with
            | .illegalCmd => 1 | .reservedField => 2 | .unknownAlgorithm => 3 | .sequence => 4 | .length => 5
            | .hexFormat => 6),
          busy := false, done := true }
      ∧ (∀ a, t.byteAt a = s.byteAt a)
      ∧ ∀ n, exec .update t = .next (t.raise .sequence) ∧ exec (.final n) t = .next (t.raise .sequence)

/-- R343 and R96: the command in PEND ends in the first error of the spec's check order, and without error when that
order names none. That a success leaves ERR and ERRCODE as they were is the model's inference from R30 and R260 (log entry
13). -/
def Obligations.FirstErrorIsReported : Prop :=
  ∀ s : State,
    (∀ e, firstError s.pend s = some e → engineStep s = .next (s.raise e))
    ∧ (firstError s.pend s = none →
        ∃ t, engineStep s = .next t ∧ t.err = s.err ∧ t.errCode = s.errCode ∧ t.busy = false ∧ t.done = true)

/-- R26: the transitions of PHASE at the completion of a command accepted without error. -/
def Obligations.PhaseTransitions : Prop :=
  ∀ (i : Instr) (s t : State), exec i s = .next t → s.err = false →
    t.phase = (if t.err then .idle
      else match i with
        | .init _ => .hash
        | .hinit _ => .hkey
        | .final _ => if s.phase = .hkey then .hmsg else .idle
        | .clear => .idle
        | .nop | .update | .hex | .unhex _ => s.phase)

/-! ## Reset -/

/-- R370, R371 and R44: the release of reset gives every register its reset value, whatever was pending; the buffer bytes
are then the free draws of this reset. PEND, which R44 leaves unspecified, is the model's zero (log entry 5). -/
def Obligations.ResetRelease : Prop :=
  ∀ (s : State) (rest : List HostOp), s.resetHeld = true → s.env.host = .resetPin false :: rest →
    ∃ t, step s = .next t ∧ statusWord t = 0 ∧ t.busy = false ∧ t.phase = .idle ∧ t.alg = .md5 ∧ t.h = Chain.zero
      ∧ t.len = 0 ∧ t.k0 = Vector.replicate 128 0 ∧ t.pend = 0 ∧ t.resetHeld = false
      ∧ t.env.resets = s.env.resets + 1 ∧ t.env.host = rest
      ∧ ∀ a, t.byteAt a = Config.unwritten (s.env.resets + 1) a

/-- R370 (U5): a bus transaction while reset is asserted has no step; that it is the fault `busDuringReset` is the model's
reading (log entry 7). R370 gives the state at the release alone: that every other step while reset is asserted, short of the
release, leaves each register and each buffer byte as it was is the model's choice (log entry 7). -/
def Obligations.ResetHeldStandsStill : Prop :=
  ∀ s : State, s.resetHeld = true →
    (∀ addr size rest, s.env.host = .read addr size :: rest → step s = .fault .busDuringReset)
    ∧ (∀ addr size data rest, s.env.host = .write addr size data :: rest → step s = .fault .busDuringReset)
    ∧ (∀ rest, s.env.host = .wait :: rest → step s = .fault .busDuringReset)
    ∧ (∀ t, step s = .next t → (∀ rest, s.env.host ≠ .resetPin false :: rest) → SameCore s t)

/-- The reset input asserted at the host's turn (R370), whatever the engine is doing. R370 gives the state at the release
alone: that asserting reset leaves every register and every buffer byte as it was until then is the model's choice (log
entry 7). -/
def Obligations.ResetAssertion : Prop :=
  ∀ (s : State) (rest : List HostOp), HostActs s (.resetPin true) rest →
    ∃ t, step s = .next t ∧ t.env.host = rest ∧ SameCore { s with resetHeld := true } t

/-! ## The bus -/

/-- R62 and R345: a transaction of another size, or at an offset that is not a multiple of 4, answers BUSERR and changes
no state; every other one answers OK. -/
def Obligations.BusErrExactlyWhenNotAdmitted : Prop :=
  ∀ (s : State) (addr : BitVec 12) (size : Nat) (data : Word) (rest : List HostOp),
    (HostActs s (.read addr size) rest →
      ∃ t, step s = .next t ∧ t.env.host = rest ∧
        if addr.toNat % 4 ≠ 0 ∨ size ≠ 4 then t.env.answers = .busErr :: s.env.answers ∧ SameCore s t
        else ∃ v, t.env.answers = .readOk v :: s.env.answers)
    ∧ (HostActs s (.write addr size data) rest →
      ∃ t, step s = .next t ∧ t.env.host = rest ∧
        if addr.toNat % 4 ≠ 0 ∨ size ≠ 4 then t.env.answers = .busErr :: s.env.answers ∧ SameCore s t
        else t.env.answers = .writeOk :: s.env.answers)

/-- R69: a read, of any offset and size and at any time, leaves every register and every buffer byte as it was; two reads of
one offset in states that differ in the environment alone get the same answer, but where R72 makes it unspecified. -/
def Obligations.ReadsHaveNoSideEffect : Prop :=
  ∀ (s : State) (addr : BitVec 12) (size : Nat) (rest : List HostOp), HostActs s (.read addr size) rest →
    (∃ t, step s = .next t ∧ SameCore s t)
    ∧ ∀ (u : State) (rest' : List HostOp), SameCore s u → HostActs u (.read addr size) rest' →
        (s.busy = true → ¬EngineWritten addr.toNat ∧ ¬HostBuffer addr.toNat) →
        ∃ t t' b, step s = .next t ∧ step u = .next t' ∧ t.env.answers = b :: s.env.answers
          ∧ t'.env.answers = b :: u.env.answers

/-- R63, R64, R65, R66 and R68: what a read answers while no command runs, row by row of the register map. -/
def Obligations.RegisterMapReads : Prop :=
  ∀ s : State, s.busy = false →
    ReadAnswers s 0x000 0x4A53071F ∧ ReadAnswers s 0x004 (statusWord s) ∧ ReadAnswers s 0x008 0
    ∧ (∀ i < 4, ReadAnswers s (0x010 + 4 * i) (s.len.extractLsb' (32 * i) 32))
    ∧ (∀ i < 8, ReadAnswers s (0x040 + 8 * i) ((chainGet s.h i).extractLsb' 0 32))
    ∧ (∀ i < 8, ReadAnswers s (0x044 + 8 * i) ((chainGet s.h i).extractLsb' 32 32))
    ∧ (∀ j < 16, ReadAnswers s (0x080 + 4 * j) (laneWord s (0x080 + 4 * j)))
    ∧ (∀ j < 32, ReadAnswers s (0x100 + 4 * j) (laneWord s (0x100 + 4 * j)))
    ∧ (∀ j < 32, ReadAnswers s (0x200 + 4 * j) (laneWord s (0x200 + 4 * j)))
    ∧ (∀ j < 32, ReadAnswers s (0x280 + 4 * j) (laneWord s (0x280 + 4 * j)))
    ∧ (∀ a, Reserved a → a % 4 = 0 → ReadAnswers s a 0)

/-- R247: the ROM's words answer at their offsets at any time, a running command or none. What the words are: T is the table
of R241; s runs four times through each of R242's cycles; SHA-1's k_p is `floor(sqrt(q_p) * 2^30)` (R243); K256[t] and K512[t]
are the first 32 and 64 bits of the fractional part of the cube root of the prime p_t (R244, R246), whose whole part
is `c`. -/
def Obligations.RomReads : Prop :=
  ∀ s : State,
    (∀ i < 64, ReadAnswers s (0x400 + 4 * i) (romMd5T.getD i 0))
    ∧ (∀ i < 64, ReadAnswers s (0x500 + 4 * i) (romSha256K.getD i 0))
    ∧ (∀ i < 80, ReadAnswers s (0x600 + 8 * i) ((romSha512K.getD i 0).extractLsb' 0 32))
    ∧ (∀ i < 80, ReadAnswers s (0x604 + 8 * i) ((romSha512K.getD i 0).extractLsb' 32 32))
    ∧ (∀ i < 4, ReadAnswers s (0x880 + 4 * i) (romSha1K.getD i 0))
    ∧ (∀ i < 64, ReadAnswers s (0x900 + 4 * i) (BitVec.ofNat 32 (romMd5S.getD i 0)))
    ∧ (∀ i < 64, ReadAnswers s (0x604 + 8 * i) (romSha256K.getD i 0))
    ∧ romMd5T =
      [0xD76AA478, 0xE8C7B756, 0x242070DB, 0xC1BDCEEE, 0xF57C0FAF, 0x4787C62A, 0xA8304613, 0xFD469501,
        0x698098D8, 0x8B44F7AF, 0xFFFF5BB1, 0x895CD7BE, 0x6B901122, 0xFD987193, 0xA679438E, 0x49B40821,
        0xF61E2562, 0xC040B340, 0x265E5A51, 0xE9B6C7AA, 0xD62F105D, 0x02441453, 0xD8A1E681, 0xE7D3FBC8,
        0x21E1CDE6, 0xC33707D6, 0xF4D50D87, 0x455A14ED, 0xA9E3E905, 0xFCEFA3F8, 0x676F02D9, 0x8D2A4C8A]
      ++ [0xFFFA3942, 0x8771F681, 0x6D9D6122, 0xFDE5380C, 0xA4BEEA44, 0x4BDECFA9, 0xF6BB4B60, 0xBEBFBC70,
        0x289B7EC6, 0xEAA127FA, 0xD4EF3085, 0x04881D05, 0xD9D4D039, 0xE6DB99E5, 0x1FA27CF8, 0xC4AC5665,
        0xF4292244, 0x432AFF97, 0xAB9423A7, 0xFC93A039, 0x655B59C3, 0x8F0CCC92, 0xFFEFF47D, 0x85845DD1,
        0x6FA87E4F, 0xFE2CE6E0, 0xA3014314, 0x4E0811A1, 0xF7537E82, 0xBD3AF235, 0x2AD7D2BB, 0xEB86D391]
    ∧ romMd5S = [[7, 12, 17, 22], [5, 9, 14, 20], [4, 11, 16, 23], [6, 10, 15, 21]].flatMap (fun c => c ++ c ++ c ++ c)
    ∧ (∀ p < 4, (romSha1K.getD p 0).toNat ^ 2 ≤ [2, 3, 5, 10].getD p 0 * (2 ^ 30) ^ 2
        ∧ [2, 3, 5, 10].getD p 0 * (2 ^ 30) ^ 2 < ((romSha1K.getD p 0).toNat + 1) ^ 2)
    ∧ (∀ t < 64, ∃ c, IsCubeRoot (c * 2 ^ 32 + (romSha256K.getD t 0).toNat) (primes.getD t 0) 32)
    ∧ (∀ t < 80, ∃ c, IsCubeRoot (c * 2 ^ 64 + (romSha512K.getD t 0).toNat) (primes.getD t 0) 64)
    ∧ romSha256K.length = 64 ∧ romSha512K.length = 80 ∧ romSha1K.length = 4

/-- R72: while a command runs, a read of LEN0-3, H, DIGEST, HEXOUT, BUF or HEXIN answers a fresh free word, and a read of
ID, STATUS, CMD or a reserved offset its defined word. -/
def Obligations.BusyReads : Prop :=
  ∀ s : State, s.busy = true →
    (∀ a, a % 4 = 0 → EngineWritten a ∨ HostBuffer a →
      ∀ rest, HostActs s (.read (BitVec.ofNat 12 a) 4) rest →
        ∃ t, step s = .next t ∧ t.env.answers = .readOk (Config.busyRead s.env.draws) :: s.env.answers
          ∧ t.env.draws = s.env.draws + 1 ∧ SameCore s t)
    ∧ ReadAnswers s 0x000 0x4A53071F ∧ ReadAnswers s 0x004 (statusWord s) ∧ ReadAnswers s 0x008 0
    ∧ (∀ a, Reserved a → a % 4 = 0 → ReadAnswers s a 0)

/-- R64 and R70: a write to BUF or HEXIN while no command runs stores its four bytes, lowest first, and does nothing else. -/
def Obligations.BufferWriteStoresFourBytes : Prop :=
  ∀ (s : State) (a : Nat) (v : Word) (rest : List HostOp), s.busy = false → HostBuffer a → a % 4 = 0 →
    HostActs s (.write (BitVec.ofNat 12 a) 4 v) rest →
    ∃ t, step s = .next t ∧ t.env.answers = .writeOk :: s.env.answers ∧ t.env.resets = s.env.resets
      ∧ (∀ k < 4, t.byteAt (a + k) = v.extractLsb' (8 * k) 8)
      ∧ (∀ b, b < a ∨ a + 4 ≤ b → t.byteAt b = s.byteAt b)
      ∧ t = { s with mem := t.mem, env := t.env }

/-- R71 and R376: a write to CMD, BUF or HEXIN while a command runs answers OK, is dropped, and sets OVR. -/
def Obligations.BusyWritesAreDropped : Prop :=
  ∀ (s : State) (a : Nat) (v : Word), s.busy = true → a = 0x008 ∨ (HostBuffer a ∧ a % 4 = 0) →
    WriteLeaves s a v { s with ovr := true }

/-- R66 and R67: a write to a reserved or read-only offset answers OK and changes nothing, at any time. -/
def Obligations.ReadOnlyWritesAreIgnored : Prop :=
  ∀ (s : State) (a : Nat) (v : Word), a % 4 = 0 →
    a = 0x000 ∨ a = 0x004 ∨ Reserved a ∨ EngineWritten a ∨ RomOffset a → WriteLeaves s a v s

/-- R375: a write of `v` to CMD while no command runs is accepted. -/
def Obligations.CommandAcceptance : Prop :=
  ∀ (s : State) (v : Word), s.busy = false →
    WriteLeaves s 0x008 v { s with pend := v, busy := true, done := false, err := false, errCode := 0 }

/-- R100: WAIT reads STATUS and ends when bit 0 of it reads 0. -/
def Obligations.WaitPollsStatus : Prop :=
  ∀ (s : State) (rest : List HostOp), HostActs s .wait rest →
    ∃ t, step s = .next t ∧ t.env.answers = .readOk (statusWord s) :: s.env.answers ∧ SameCore s t
      ∧ t.env.host = (if s.busy then .wait :: rest else rest)

/-- R27: the fields of the STATUS word, and the bits that read 0. -/
def Obligations.StatusFields : Prop :=
  ∀ s : State,
    (statusWord s).getLsbD 0 = s.busy ∧ (statusWord s).getLsbD 1 = s.done ∧ (statusWord s).getLsbD 2 = s.err
    ∧ (statusWord s).getLsbD 3 = s.ovr ∧ (statusWord s).extractLsb' 4 4 = s.errCode
    ∧ (statusWord s).extractLsb' 8 3 = (match s.alg with
        | .md5 => 0 | .sha1 => 1 | .sha256 => 2 | .sha384 => 3 | .sha512 => 4)
    ∧ (statusWord s).extractLsb' 12 2 = (match s.phase with | .idle => 0 | .hash => 1 | .hkey => 2 | .hmsg => 3)
    ∧ (statusWord s).extractLsb' 16 7 = s.dlen
    ∧ ∀ b, b = 11 ∨ b = 14 ∨ b = 15 ∨ 23 ≤ b → (statusWord s).getLsbD b = false

/-! ## Digest session commands -/

/-- R261: NOP, its word and its reserved bits. -/
def Obligations.NopCompletes : Prop :=
  decode 0x00000000 = .instr .nop
    ∧ (∀ v : Word, v.toNat % 16 = 0 → v ≠ 0 → decode v = .reject .reservedField)
    ∧ ∀ s : State, exec .nop s = .next { s with busy := false, done := true }

/-- R262 and R310: INIT and HINIT start a session of the algorithm the code names, from any state; they differ in the
phase they enter. Everything they do not name is unchanged. -/
def Obligations.InitAndHinitStartSession : Prop :=
  ∀ (s : State) (a : Alg),
    exec (.init ((algCode a).setWidth 4)) s =
      .next { s with alg := a, h := iv a, len := 0, k0 := Vector.replicate 128 0, phase := .hash,
                     busy := false, done := true }
    ∧ exec (.hinit ((algCode a).setWidth 4)) s =
      .next { s with alg := a, h := iv a, len := 0, k0 := Vector.replicate 128 0, phase := .hkey,
                     busy := false, done := true }

/-- R93: ALG codes 0 to 4 of INIT and HINIT name the five algorithms in order; 5 to 15 name none, and the command raises
UNKNOWN_ALGORITHM. -/
def Obligations.AlgorithmCodes : Prop :=
  ∀ (s : State) (c : BitVec 4),
    (∀ a, [Alg.md5, .sha1, .sha256, .sha384, .sha512][c.toNat]? = some a →
      (∃ t, exec (.init c) s = .next t ∧ t.alg = a ∧ t.phase = .hash)
      ∧ ∃ t, exec (.hinit c) s = .next t ∧ t.alg = a ∧ t.phase = .hkey)
    ∧ (5 ≤ c.toNat →
        exec (.init c) s = .next (s.raise .unknownAlgorithm) ∧ exec (.hinit c) s = .next (s.raise .unknownAlgorithm))

/-- R263 and R313: UPDATE in HASH and in HMSG absorbs one full block of BUF, and changes nothing else. -/
def Obligations.UpdateAbsorbsBlock : Prop :=
  ∀ s : State, s.phase = .hash ∨ s.phase = .hmsg →
    exec .update s =
      .next { s with h := compress s.alg s.h (s.bufBytes (blockSize s.alg)),
                     len := BitVec.ofNat 128 ((s.len.toNat + 8 * blockSize s.alg) % 2 ^ 128),
                     busy := false, done := true }

/-- R311: UPDATE in HKEY absorbs one full block of the key; while LEN = 0 it also keeps the block raw in K0. -/
def Obligations.UpdateAbsorbsKeyBlock : Prop :=
  ∀ s : State, s.phase = .hkey →
    exec .update s =
      .next { s with k0 := if s.len = 0 then keyOfBytes (s.bufBytes (blockSize s.alg)) else s.k0,
                     h := compress s.alg s.h (s.bufBytes (blockSize s.alg)),
                     len := BitVec.ofNat 128 ((s.len.toNat + 8 * blockSize s.alg) % 2 ^ 128),
                     busy := false, done := true }

/-- R264 and R266: UPDATE and FINAL in IDLE raise SEQUENCE; FINAL with n >= bs in a session raises LENGTH. -/
def Obligations.UpdateAndFinalErrors : Prop :=
  ∀ (s : State) (n : BitVec 8),
    (s.phase = .idle → exec .update s = .next (s.raise .sequence) ∧ exec (.final n) s = .next (s.raise .sequence))
    ∧ (s.phase ≠ .idle → blockSize s.alg ≤ n.toNat → exec (.final n) s = .next (s.raise .length))

/-- R265: FINAL n in HASH finishes the message with the tail BUF[0..n). Only H, LEN, DIGEST, DLEN and PHASE change, beside
the command's end. -/
def Obligations.FinalEndsDigest : Prop :=
  ∀ (s : State) (n : BitVec 8), s.phase = .hash → n.toNat < blockSize s.alg →
    ∃ t, exec (.final n) s = .next t
      ∧ t.h = finishHash s.alg s.h s.len.toNat (s.bufBytes n.toNat)
      ∧ t.len = BitVec.ofNat 128 ((s.len.toNat + 8 * n.toNat) % 2 ^ 128)
      ∧ DigestIs t (serialize s.alg t.h) ∧ t.dlen.toNat = outputLength s.alg ∧ t.phase = .idle
      ∧ t.busy = false ∧ t.done = true
      ∧ (∀ a, a < 0x080 ∨ 0x0C0 ≤ a → t.byteAt a = s.byteAt a)
      ∧ t = { s with h := t.h, len := t.len, dlen := t.dlen, phase := t.phase, busy := t.busy, done := t.done,
                     mem := t.mem }

/-- R312: FINAL n in HKEY ends the key: K0 is the key padded with zeros when it is no longer than a block, else its
digest; then the inner pad block is absorbed. DIGEST and DLEN are unchanged, as is every buffer byte. -/
def Obligations.FinalEndsKey : Prop :=
  ∀ (s : State) (n : BitVec 8), s.phase = .hkey → n.toNat < blockSize s.alg →
    ∃ t, exec (.final n) s = .next t
      ∧ t.k0 = (if s.len.toNat / 8 + n.toNat ≤ blockSize s.alg then
                  (if s.len = 0 then keyOfBytes (s.bufBytes n.toNat) else s.k0)
                else keyOfBytes (serialize s.alg (finishHash s.alg s.h s.len.toNat (s.bufBytes n.toNat))))
      ∧ t.h = compress s.alg (iv s.alg) ((t.k0.toList.take (blockSize s.alg)).map (· ^^^ 0x36))
      ∧ t.len.toNat = 8 * blockSize s.alg ∧ t.phase = .hmsg ∧ t.busy = false ∧ t.done = true
      ∧ t = { s with k0 := t.k0, h := t.h, len := t.len, phase := t.phase, busy := t.busy, done := t.done }

/-- R314: FINAL n in HMSG finishes the inner hash, runs the outer one over the opad block and the inner digest's raw bytes,
and leaves the HMAC in DIGEST and K0 zero. -/
def Obligations.FinalEndsHmac : Prop :=
  ∀ (s : State) (n : BitVec 8), s.phase = .hmsg → n.toNat < blockSize s.alg →
    let inner := serialize s.alg (finishHash s.alg s.h s.len.toNat (s.bufBytes n.toNat))
    let opad := compress s.alg (iv s.alg) ((s.k0.toList.take (blockSize s.alg)).map (· ^^^ 0x5c))
    ∃ t, exec (.final n) s = .next t
      ∧ t.h = finishHash s.alg opad (8 * blockSize s.alg) inner
      ∧ t.len.toNat = 8 * (blockSize s.alg + outputLength s.alg)
      ∧ DigestIs t (serialize s.alg t.h) ∧ t.dlen.toNat = outputLength s.alg
      ∧ t.k0 = Vector.replicate 128 0 ∧ t.phase = .idle ∧ t.busy = false ∧ t.done = true
      ∧ (∀ a, a < 0x080 ∨ 0x0C0 ≤ a → t.byteAt a = s.byteAt a)
      ∧ t = { s with h := t.h, len := t.len, dlen := t.dlen, k0 := t.k0, phase := t.phase, busy := t.busy,
                     done := t.done, mem := t.mem }

/-- R267: CLEAR zeroes the session's registers, every byte of the four buffers, and OVR. ERR and ERRCODE, cleared at
acceptance, and PEND are unchanged. Its word, and its reserved bits. -/
def Obligations.ClearZeroesEverything : Prop :=
  decode 0x00000007 = .instr .clear ∧ (∀ v : Word, v.toNat % 16 = 7 → v ≠ 7 → decode v = .reject .reservedField)
  ∧ ∀ s : State, ∃ t, exec .clear s = .next t
    ∧ t = { s with h := Chain.zero, len := 0, alg := .md5, phase := .idle, dlen := 0, k0 := Vector.replicate 128 0,
                   ovr := false, busy := false, done := true, mem := t.mem }
    ∧ (∀ a, (0x080 ≤ a ∧ a < 0x0C0) ∨ (0x100 ≤ a ∧ a < 0x180) ∨ (0x200 ≤ a ∧ a < 0x300) → t.byteAt a = 0)

/-- R268: a session depends on its commands and on BUF alone: INIT and HINIT overwrite everything a session reads, UPDATE
and FINAL carry agreement over, a finished digest or HMAC is the same, and no session goes on from IDLE. -/
def Obligations.SessionsAreStateless : Prop :=
  (∀ (s1 s2 : State) (a : Alg), ∃ t1 t2 u1 u2,
      exec (.init ((algCode a).setWidth 4)) s1 = .next t1 ∧ exec (.init ((algCode a).setWidth 4)) s2 = .next t2
      ∧ SameSession t1 t2
      ∧ exec (.hinit ((algCode a).setWidth 4)) s1 = .next u1 ∧ exec (.hinit ((algCode a).setWidth 4)) s2 = .next u2
      ∧ SameSession u1 u2)
  ∧ (∀ (s1 s2 : State) (n : BitVec 8), SameSession s1 s2 → s1.bufBytes 128 = s2.bufBytes 128 →
      ∃ t1 t2 u1 u2, exec .update s1 = .next t1 ∧ exec .update s2 = .next t2 ∧ SameSession t1 t2
        ∧ exec (.final n) s1 = .next u1 ∧ exec (.final n) s2 = .next u2 ∧ SameSession u1 u2
        ∧ (s1.phase = .hash ∨ s1.phase = .hmsg → n.toNat < blockSize s1.alg →
            u1.dlen = u2.dlen ∧ u1.digestBytes 64 = u2.digestBytes 64 ∧ u1.phase = .idle))
  ∧ (∀ (s : State) (n : BitVec 8), s.phase = .idle →
      exec .update s = .next (s.raise .sequence) ∧ exec (.final n) s = .next (s.raise .sequence))

/-! ## Hex converter -/

/-- R290 and R291: HEX renders DIGEST[0..DLEN) in HEXOUT, high nibble first, '0'-'9' and 'A'-'F', and zeros after it; no
other byte and no register changes but BUSY and DONE, in any phase. Its word, and its reserved bits. -/
def Obligations.HexRendersDigest : Prop :=
  decode 0x00000005 = .instr .hex ∧ (∀ v : Word, v.toNat % 16 = 5 → v ≠ 5 → decode v = .reject .reservedField)
  ∧ ∀ s : State, s.dlen.toNat ≤ 64 →
    ∃ t, exec .hex s = .next t
      ∧ (∀ j < s.dlen.toNat,
          let b := (s.byteAt (0x080 + j)).toNat
          (t.byteAt (0x200 + 2 * j)).toNat = (if b / 16 ≤ 9 then 0x30 + b / 16 else 0x41 + (b / 16 - 10))
          ∧ (t.byteAt (0x200 + (2 * j + 1))).toNat = (if b % 16 ≤ 9 then 0x30 + b % 16 else 0x41 + (b % 16 - 10)))
      ∧ (∀ j, 2 * s.dlen.toNat ≤ j → j < 128 → t.byteAt (0x200 + j) = 0)
      ∧ (∀ a, a < 0x200 ∨ 0x280 ≤ a → t.byteAt a = s.byteAt a)
      ∧ t = { s with mem := t.mem, busy := false, done := true }

/-- R292 and R293: UNHEX n of hex digits, upper- or lowercase, writes BUF[0..n) and nothing else but BUSY and DONE. -/
def Obligations.UnhexParsesText : Prop :=
  ∀ (s : State) (n : BitVec 8), n.toNat ≤ 64 → (∀ j < 2 * n.toNat, s.byteAt (0x280 + j) ∈ hexDigits) →
    ∃ t, exec (.unhex n) s = .next t
      ∧ (∀ k < n.toNat, ∀ hi lo : Nat,
          hi < 16 → lo < 16 →
          (s.byteAt (0x280 + 2 * k) = hexChar (BitVec.ofNat 4 hi)
            ∨ (10 ≤ hi ∧ s.byteAt (0x280 + 2 * k) = BitVec.ofNat 8 (0x61 + (hi - 10)))) →
          (s.byteAt (0x280 + (2 * k + 1)) = hexChar (BitVec.ofNat 4 lo)
            ∨ (10 ≤ lo ∧ s.byteAt (0x280 + (2 * k + 1)) = BitVec.ofNat 8 (0x61 + (lo - 10)))) →
          t.byteAt (0x100 + k) = BitVec.ofNat 8 (hi * 16 + lo))
      ∧ (∀ a, a < 0x100 ∨ 0x100 + n.toNat ≤ a → t.byteAt a = s.byteAt a)
      ∧ t = { s with mem := t.mem, busy := false, done := true }

/-- R294: UNHEX raises LENGTH when n > 64, and HEX_FORMAT when an examined character is no hex digit; either way BUF and
every other buffer byte is unchanged. -/
def Obligations.UnhexErrors : Prop :=
  ∀ (s : State) (n : BitVec 8),
    (64 < n.toNat → exec (.unhex n) s = .next (s.raise .length))
    ∧ (n.toNat ≤ 64 → (∃ j < 2 * n.toNat, s.byteAt (0x280 + j) ∉ hexDigits) →
        exec (.unhex n) s = .next (s.raise .hexFormat))
    ∧ ∀ (e : CmdError) (a : Nat), (s.raise e).byteAt a = s.byteAt a

/-- R295: HEX, then the host's copy of HEXOUT to HEXIN, then UNHEX DLEN leaves BUF[0..DLEN) = DIGEST[0..DLEN). -/
def Obligations.HexRoundTrip : Prop :=
  ∀ s u : State, s.dlen.toNat ≤ 64 →
    ∀ t, exec .hex s = .next t → (∀ j < 2 * s.dlen.toNat, u.byteAt (0x280 + j) = t.byteAt (0x200 + j)) →
      ∃ v, exec (.unhex (s.dlen.setWidth 8)) u = .next v
        ∧ ∀ k < s.dlen.toNat, v.byteAt (0x100 + k) = s.byteAt (0x080 + k)

/-! ## Whole-machine rules -/

/-- The invariant of the machine holds right after reset. -/
def Obligations.ResetHasInvariant : Prop := State.reset.Inv

/-- Every step keeps the invariant, from every state that has it: canonical memory, DONE and BUSY never together, ERR with
ERRCODE, the legal values of ERRCODE and DLEN, the widths of the chaining registers, no key outside an HMAC session, whole
blocks absorbed. -/
def Obligations.StepKeepsInvariant : Prop := ∀ s t : State, s.Inv → step s = .next t → t.Inv

/-- R31: OVR is set only by a host write to CMD, BUF or HEXIN while BUSY = 1, and cleared only by reset and by a completed
CLEAR. -/
def Obligations.OvrIsSticky : Prop :=
  ∀ s t : State, step s = .next t →
    (s.ovr = false → t.ovr = true →
      s.busy = true ∧ ∃ addr data rest, s.env.host = .write addr 4 data :: rest
        ∧ (addr.toNat = 0x008 ∨ HostBuffer addr.toNat))
    ∧ (s.ovr = true → t.ovr = false →
      (s.resetHeld = true ∧ ∃ rest, s.env.host = .resetPin false :: rest)
        ∨ (engineDue s = true ∧ decode s.pend = .instr .clear))

/-- R65, R77 and R380: H, LEN, ALG, PHASE, DLEN, K0, DIGEST and HEXOUT change only at a command's completion or at the
release of reset. -/
def Obligations.RegistersChangeAtCompletion : Prop :=
  ∀ s t : State, step s = .next t → engineDue s = false → (∀ rest, s.env.host ≠ .resetPin false :: rest) →
    t.h = s.h ∧ t.len = s.len ∧ t.alg = s.alg ∧ t.phase = s.phase ∧ t.dlen = s.dlen ∧ t.k0 = s.k0
    ∧ (∀ a, (0x080 ≤ a ∧ a < 0x0C0) ∨ (0x200 ≤ a ∧ a < 0x280) → t.byteAt a = s.byteAt a)
    ∧ (s.busy = true → ∀ a, t.byteAt a = s.byteAt a)

/-- R38, R39 and R350, for a turn of the host (the engine's step is not due): what the bus answers in it, and all it changes,
is the same in two states that differ in K0 and PEND alone. It says nothing of the engine's step, which works on K0
and PEND. -/
def Obligations.KeyIsInvisibleToHost : Prop :=
  ∀ (s t : State) (k : Vector Byte 128) (p : Word), engineDue s = false → step s = .next t →
    ∃ t', step { s with k0 := k, pend := p } = .next t' ∧ t'.env = t.env
      ∧ t' = { t with k0 := t'.k0, pend := t'.pend }

/-! ## The engines -/

/-- R9: the word operators at any width. -/
def Obligations.WordOperators : Prop :=
  ∀ (w : Nat) (x y : BitVec w) (n : Nat),
    (x + y).toNat = (x.toNat + y.toNat) % 2 ^ w ∧ (~~~x).toNat = 2 ^ w - 1 - x.toNat
    ∧ (∀ k, (x &&& y).getLsbD k = (x.getLsbD k && y.getLsbD k) ∧ (x ||| y).getLsbD k = (x.getLsbD k || y.getLsbD k)
        ∧ (x ^^^ y).getLsbD k = (x.getLsbD k ^^ y.getLsbD k))
    ∧ (n < w → (shr x n).toNat = x.toNat / 2 ^ n)
    ∧ (0 < n → n < w → (rotl x n).toNat = (x.toNat * 2 ^ n % 2 ^ w) ||| (x.toNat / 2 ^ (w - n)))
    ∧ rotl x 0 = x ∧ (0 < n → n < w → rotr x n = rotl x (w - n))

/-- R10: byte order conversions are inverse on values and strings of their size. -/
def Obligations.ByteOrders : Prop :=
  (∀ n v : Nat, v < 2 ^ (8 * n) → (toLE n v).length = n ∧ (toBE n v).length = n
      ∧ leNat (toLE n v) = v ∧ leNat (toBE n v).reverse = v)
  ∧ (∀ b : List Byte, leNat b = ((List.range b.length).map (fun k => (b.getD k 0).toNat * 2 ^ (8 * k))).sum
      ∧ toLE b.length (leNat b) = b)

/-- R122, R123 and R124: the padded tail is the tail, 0x80, the least number of zero bytes that completes a block, and the
length field in the algorithm's order; it is one block or two. -/
def Obligations.PaddedTail : Prop :=
  ∀ (a : Alg) (total : Nat) (tail : List Byte), tail.length < blockSize a →
    ∃ z lf, pad a total tail = tail ++ [0x80] ++ zeros z ++ lf ∧ lf.length = lengthField a
      ∧ (if a = .md5 then leNat lf else leNat lf.reverse) = total % 2 ^ (8 * lengthField a)
      ∧ (∀ z' < z, (tail.length + 1 + z' + lengthField a) % blockSize a ≠ 0)
      ∧ (pad a total tail).length =
          (if tail.length + lengthField a + 1 ≤ blockSize a then blockSize a else 2 * blockSize a)

/-- R127: the digest is the serialised chaining value after every block of the message and its padding, in order.
R126: the serialised chaining value is the state words in order, H0 first, little-endian for MD5 and big-endian for the SHA
family; a 32-bit algorithm's words are bits 31:0, and SHA-384 leaves H6 and H7 out. -/
def Obligations.DigestIsAbsorbOfPadded : Prop :=
  (∀ (a : Alg) (m : List Byte),
    let k := m.length / blockSize a
    let padded := m.take (k * blockSize a) ++ pad a (8 * m.length % 2 ^ 128) (m.drop (k * blockSize a))
    padded.length % blockSize a = 0 ∧ digest a m = serialize a (chainOf a padded)
      ∧ (digest a m).length = outputLength a)
  ∧ ∀ c : Chain,
    serialize .md5 c = [c.h0, c.h1, c.h2, c.h3].flatMap (fun x => toLE 4 (x.toNat % 2 ^ 32))
    ∧ serialize .sha1 c = [c.h0, c.h1, c.h2, c.h3, c.h4].flatMap (fun x => toBE 4 (x.toNat % 2 ^ 32))
    ∧ serialize .sha256 c =
        [c.h0, c.h1, c.h2, c.h3, c.h4, c.h5, c.h6, c.h7].flatMap (fun x => toBE 4 (x.toNat % 2 ^ 32))
    ∧ serialize .sha384 c = [c.h0, c.h1, c.h2, c.h3, c.h4, c.h5].flatMap (fun x => toBE 8 x.toNat)
    ∧ serialize .sha512 c = [c.h0, c.h1, c.h2, c.h3, c.h4, c.h5, c.h6, c.h7].flatMap (fun x => toBE 8 x.toNat)

/-- R128, R22: compression gives the widths and zeros of R22, reads only the state words' own bits and the first bs bytes of
the block. -/
def Obligations.CompressContract : Prop :=
  ∀ (a : Alg) (c d : Chain) (b : List Byte),
    ChainFits a (compress a c b)
    ∧ (compress a c (b.take (blockSize a)) = compress a c b)
    ∧ ((∀ j < stateWords a, (chainGet c j).toNat % 2 ^ wordWidth a = (chainGet d j).toNat % 2 ^ wordWidth a) →
        compress a c b = compress a d b)

/-- R245: the initial vectors, the registers an algorithm does not use zero. -/
def Obligations.InitialVectors : Prop :=
  iv .md5 = ⟨0x67452301, 0xEFCDAB89, 0x98BADCFE, 0x10325476, 0, 0, 0, 0⟩
    ∧ iv .sha1 = ⟨0x67452301, 0xEFCDAB89, 0x98BADCFE, 0x10325476, 0xC3D2E1F0, 0, 0, 0⟩
    ∧ iv .sha256 = ⟨0x6A09E667, 0xBB67AE85, 0x3C6EF372, 0xA54FF53A, 0x510E527F, 0x9B05688C, 0x1F83D9AB, 0x5BE0CD19⟩
    ∧ iv .sha384 = ⟨0xCBBB9D5DC1059ED8, 0x629A292A367CD507, 0x9159015A3070DD17, 0x152FECD8F70E5939,
        0x67332667FFC00B31, 0x8EB44A8768581511, 0xDB0C2E0D64F98FA7, 0x47B5481DBEFA4FA4⟩
    ∧ iv .sha512 = ⟨0x6A09E667F3BCC908, 0xBB67AE8584CAA73B, 0x3C6EF372FE94F82B, 0xA54FF53A5F1D36F1,
        0x510E527FADE682D1, 0x9B05688C2B3E6C1F, 0x1F83D9ABFB41BD6B, 0x5BE0CD19137E2179⟩

/-- R141 to R144 with R121: the message schedules, word by word, as recurrences over earlier words. -/
def Obligations.ScheduleRecurrences : Prop :=
  ∀ b : List Byte,
    (∀ W : Nat → Word, (∀ t, W t = (expandMd5 b).getD t 0) →
      (expandMd5 b).length = 64
      ∧ ∀ i < 64, ∃ g, W i = leWord 32 ((b.drop (4 * g)).take 4)
          ∧ g = (if i ≤ 15 then i else if i ≤ 31 then (5 * i + 1) % 16 else if i ≤ 47 then (3 * i + 5) % 16
            else (7 * i) % 16))
    ∧ (∀ W : Nat → Word, (∀ t, W t = (expandSha1 b).getD t 0) →
      (expandSha1 b).length = 80 ∧ (∀ t < 16, W t = beWord 32 ((b.drop (4 * t)).take 4))
      ∧ ∀ t, 16 ≤ t → t < 80 → W t = rotl (W (t - 3) ^^^ W (t - 8) ^^^ W (t - 14) ^^^ W (t - 16)) 1)
    ∧ (∀ W : Nat → Word, (∀ t, W t = (expandSha256 b).getD t 0) →
      (expandSha256 b).length = 64 ∧ (∀ t < 16, W t = beWord 32 ((b.drop (4 * t)).take 4))
      ∧ ∀ t, 16 ≤ t → t < 64 →
          W t = (rotr (W (t - 2)) 17 ^^^ rotr (W (t - 2)) 19 ^^^ shr (W (t - 2)) 10) + W (t - 7)
            + (rotr (W (t - 15)) 7 ^^^ rotr (W (t - 15)) 18 ^^^ shr (W (t - 15)) 3) + W (t - 16))
    ∧ (∀ W : Nat → DWord, (∀ t, W t = (expandSha512 b).getD t 0) →
      (expandSha512 b).length = 80 ∧ (∀ t < 16, W t = beWord 64 ((b.drop (8 * t)).take 8))
      ∧ ∀ t, 16 ≤ t → t < 80 →
          W t = (rotr (W (t - 2)) 19 ^^^ rotr (W (t - 2)) 61 ^^^ shr (W (t - 2)) 6) + W (t - 7)
            + (rotr (W (t - 15)) 1 ^^^ rotr (W (t - 15)) 8 ^^^ shr (W (t - 15)) 7) + W (t - 16))

/-- R160 and R161: MD5's 64 rounds, one by one, and the final additions. -/
def Obligations.Md5Compression : Prop :=
  ∀ (hv : Chain) (b : List Byte),
    md5Rounds 0 hv b = ⟨lowWord hv 0, lowWord hv 1, lowWord hv 2, lowWord hv 3⟩
    ∧ (∀ i < 64, ∀ v, v = md5Rounds i hv b → ∀ f,
        f = (if i ≤ 15 then (v.b &&& v.c) ||| (~~~v.b &&& v.d) else if i ≤ 31 then (v.b &&& v.d) ||| (v.c &&& ~~~v.d)
          else if i ≤ 47 then v.b ^^^ v.c ^^^ v.d else v.c ^^^ (v.b ||| ~~~v.d)) →
        md5Rounds (i + 1) hv b =
          ⟨v.d, v.b + rotl (v.a + f + romMd5T.getD i 0 + (expandMd5 b).getD i 0) (romMd5S.getD i 0), v.b, v.c⟩)
    ∧ ∀ v, v = md5Rounds 64 hv b → compress .md5 hv b =
        ⟨(lowWord hv 0 + v.a).setWidth 64, (lowWord hv 1 + v.b).setWidth 64, (lowWord hv 2 + v.c).setWidth 64,
          (lowWord hv 3 + v.d).setWidth 64, 0, 0, 0, 0⟩

/-- R180 and R181: SHA-1's 80 rounds in four phases, and the final additions. -/
def Obligations.Sha1Compression : Prop :=
  ∀ (hv : Chain) (b : List Byte),
    sha1Rounds 0 hv b = ⟨lowWord hv 0, lowWord hv 1, lowWord hv 2, lowWord hv 3, lowWord hv 4⟩
    ∧ (∀ t < 80, ∀ v, v = sha1Rounds t hv b → ∀ f k,
        f = (if t ≤ 19 then (v.b &&& v.c) ^^^ (~~~v.b &&& v.d) else if t ≤ 39 then v.b ^^^ v.c ^^^ v.d
          else if t ≤ 59 then (v.b &&& v.c) ^^^ (v.b &&& v.d) ^^^ (v.c &&& v.d) else v.b ^^^ v.c ^^^ v.d) →
        k = (if t ≤ 19 then 0x5A827999 else if t ≤ 39 then 0x6ED9EBA1 else if t ≤ 59 then 0x8F1BBCDC else 0xCA62C1D6) →
        sha1Rounds (t + 1) hv b =
          ⟨rotl v.a 5 + f + v.e + k + (expandSha1 b).getD t 0, v.a, rotl v.b 30, v.c, v.d⟩)
    ∧ ∀ v, v = sha1Rounds 80 hv b → compress .sha1 hv b =
        ⟨(lowWord hv 0 + v.a).setWidth 64, (lowWord hv 1 + v.b).setWidth 64, (lowWord hv 2 + v.c).setWidth 64,
          (lowWord hv 3 + v.d).setWidth 64, (lowWord hv 4 + v.e).setWidth 64, 0, 0, 0⟩

/-- R200 and R201: SHA-256's 64 rounds, and the final additions. -/
def Obligations.Sha256Compression : Prop :=
  ∀ (hv : Chain) (b : List Byte),
    sha256Rounds 0 hv b =
      ⟨lowWord hv 0, lowWord hv 1, lowWord hv 2, lowWord hv 3, lowWord hv 4, lowWord hv 5, lowWord hv 6, lowWord hv 7⟩
    ∧ (∀ t < 64, ∀ v, v = sha256Rounds t hv b → ∀ t1 t2,
        t1 = v.h + (rotr v.e 6 ^^^ rotr v.e 11 ^^^ rotr v.e 25) + ((v.e &&& v.f) ^^^ (~~~v.e &&& v.g))
          + romSha256K.getD t 0 + (expandSha256 b).getD t 0 →
        t2 = (rotr v.a 2 ^^^ rotr v.a 13 ^^^ rotr v.a 22) + ((v.a &&& v.b) ^^^ (v.a &&& v.c) ^^^ (v.b &&& v.c)) →
        sha256Rounds (t + 1) hv b = ⟨t1 + t2, v.a, v.b, v.c, v.d + t1, v.e, v.f, v.g⟩)
    ∧ ∀ v, v = sha256Rounds 64 hv b → compress .sha256 hv b =
        ⟨(lowWord hv 0 + v.a).setWidth 64, (lowWord hv 1 + v.b).setWidth 64, (lowWord hv 2 + v.c).setWidth 64,
          (lowWord hv 3 + v.d).setWidth 64, (lowWord hv 4 + v.e).setWidth 64, (lowWord hv 5 + v.f).setWidth 64,
          (lowWord hv 6 + v.g).setWidth 64, (lowWord hv 7 + v.h).setWidth 64⟩

/-- R220, R221 and R222: the 80 rounds of the 64-bit core, the final additions, and that SHA-384 and SHA-512 share them. -/
def Obligations.Sha512Compression : Prop :=
  ∀ (hv : Chain) (b : List Byte),
    sha512Rounds 0 hv b = ⟨hv.h0, hv.h1, hv.h2, hv.h3, hv.h4, hv.h5, hv.h6, hv.h7⟩
    ∧ (∀ t < 80, ∀ v, v = sha512Rounds t hv b → ∀ t1 t2,
        t1 = v.h + (rotr v.e 14 ^^^ rotr v.e 18 ^^^ rotr v.e 41) + ((v.e &&& v.f) ^^^ (~~~v.e &&& v.g))
          + romSha512K.getD t 0 + (expandSha512 b).getD t 0 →
        t2 = (rotr v.a 28 ^^^ rotr v.a 34 ^^^ rotr v.a 39) + ((v.a &&& v.b) ^^^ (v.a &&& v.c) ^^^ (v.b &&& v.c)) →
        sha512Rounds (t + 1) hv b = ⟨t1 + t2, v.a, v.b, v.c, v.d + t1, v.e, v.f, v.g⟩)
    ∧ (∀ v, v = sha512Rounds 80 hv b → compress .sha512 hv b =
        ⟨hv.h0 + v.a, hv.h1 + v.b, hv.h2 + v.c, hv.h3 + v.d, hv.h4 + v.e, hv.h5 + v.f, hv.h6 + v.g, hv.h7 + v.h⟩)
    ∧ compress .sha384 hv b = compress .sha512 hv b
    ∧ serialize .sha384 hv = (serialize .sha512 hv).take 48

/-! ## The engine as a digest and HMAC machine -/

/-- R269, from R262, R263, R265 and R127: INIT begins a session of the empty message, UPDATE appends a block of BUF to it, and
FINAL n leaves in DIGEST the digest of the whole message, and in LEN its length in bits. -/
def Obligations.SessionComputesDigest : Prop :=
  ∀ (s : State) (a : Alg) (m : List Byte),
    (∃ t, exec (.init ((algCode a).setWidth 4)) s = .next t ∧ DigestSession t a [])
    ∧ (DigestSession s a m →
        (∃ t, exec .update s = .next t ∧ DigestSession t a (m ++ s.bufBytes (blockSize a)))
        ∧ ∀ n : BitVec 8, n.toNat < blockSize a →
            ∃ t, exec (.final n) s = .next t ∧ DigestIs t (digest a (m ++ s.bufBytes n.toNat)) ∧ t.phase = .idle
              ∧ t.len = BitVec.ofNat 128 (8 * (m.length + n.toNat)))

/-- R310 to R314 and R317: HINIT begins a session of the empty key, UPDATE appends key bytes, FINAL ends the key and
begins the message, UPDATE appends message bytes, and FINAL leaves in DIGEST the HMAC of the whole message under the whole
key, and no key in K0. The key is shorter than 2^128 bits. -/
def Obligations.SessionComputesHmac : Prop :=
  ∀ (s : State) (a : Alg) (key m : List Byte),
    (∃ t, exec (.hinit ((algCode a).setWidth 4)) s = .next t ∧ KeySession t a [])
    ∧ (KeySession s a key → 8 * key.length < 2 ^ 128 →
        (∃ t, exec .update s = .next t ∧ KeySession t a (key ++ s.bufBytes (blockSize a)))
        ∧ ∀ n : BitVec 8, n.toNat < blockSize a →
            ∃ t, exec (.final n) s = .next t ∧ MessageSession t a (key ++ s.bufBytes n.toNat) [])
    ∧ (MessageSession s a key m →
        (∃ t, exec .update s = .next t ∧ MessageSession t a key (m ++ s.bufBytes (blockSize a)))
        ∧ ∀ n : BitVec 8, n.toNat < blockSize a →
            ∃ t, exec (.final n) s = .next t ∧ DigestIs t (hmac a key (m ++ s.bufBytes n.toNat))
              ∧ t.k0 = Vector.replicate 128 0 ∧ t.phase = .idle)

/-- Glossary and V1.6: a key longer than the block size gives the same HMAC as its digest used as the key. -/
def Obligations.LongKeyIsItsDigest : Prop :=
  ∀ (a : Alg) (key m : List Byte), blockSize a < key.length → hmac a key m = hmac a (digest a key) m
end

