-- ==== Sys2Proof/Laws/Bytes.lean ====
section
/-!
SUPPORT. The small lemmas of byte strings, byte orders and chaining registers.
-/
namespace Sys2Proof.Machine

@[simp] theorem zeros_length (n : Nat) : (zeros n).length = n := by simp [zeros]

@[simp] theorem fit_length' (n : Nat) (b : List Byte) : (fit n b).length = n := fit_length n b

@[simp] theorem xorRep_length (x : Byte) (b : List Byte) : (xorRep x b).length = b.length := by simp [xorRep]

@[simp] theorem toLE_length (n v : Nat) : (toLE n v).length = n := by
  induction n generalizing v with
  | zero => rfl
  | succ n ih => simp [toLE, ih]

@[simp] theorem toBE_length (n v : Nat) : (toBE n v).length = n := by simp [toBE]

/-- Reading the n-byte little-endian string of a value gives the value modulo 2^(8n) (00_scope.md R10). -/
theorem leNat_toLE (n v : Nat) : leNat (toLE n v) = v % 256 ^ n := by
  induction n generalizing v with
  | zero => simp [toLE, leNat, Nat.mod_one]
  | succ n ih =>
    have h : v % (256 * 256 ^ n) = v % 256 + 256 * (v / 256 % 256 ^ n) := Nat.mod_mul
    simp only [toLE, leNat, ih, BitVec.toNat_ofNat, Nat.pow_succ, Nat.mul_comm (256 ^ n) 256, h]

@[simp] theorem keyOfBytes_toList (b : List Byte) : (keyOfBytes b).toList = fit 128 b := rfl

/-- The all-zero K0 is the empty key. -/
theorem keyOfBytes_nil : keyOfBytes [] = Vector.replicate 128 0 := by
  rfl

/-- A string that fits is kept, zeros after it. -/
theorem fit_of_length_le {n : Nat} {b : List Byte} (h : b.length ≤ n) : fit n b = b ++ zeros (n - b.length) := by
  simp [fit, List.take_of_length_le h]

theorem fit_self {n : Nat} {b : List Byte} (h : b.length = n) : fit n b = b := by
  simp [fit, zeros, h, List.take_of_length_le (Nat.le_of_eq h)]

theorem outputLength_lt_blockSize (a : Alg) : outputLength a < blockSize a := by cases a <;> decide

theorem blockSize_pos (a : Alg) : 0 < blockSize a := by cases a <;> decide

theorem blockSize_le (a : Alg) : blockSize a ≤ 128 := by cases a <;> decide

theorem outputLength_le (a : Alg) : outputLength a ≤ 64 := by cases a <;> decide

/-- The digest has exactly OL bytes (40_word_ops_and_padding.md R126). -/
@[simp] theorem serialize_length (a : Alg) (c : Chain) : (serialize a c).length = outputLength a := by
  cases a <;> simp [serialize, outputLength, List.flatMap, List.range, List.range.loop]

@[simp] theorem lengthBytes_length (a : Alg) (n : Nat) : (lengthBytes a n).length = lengthField a := by
  cases a <;> simp [lengthBytes, lengthField]

/-- The algorithm of a code that names one. -/
theorem algOfCode_cases (c : BitVec 4) :
    (∃ a, algOfCode c = some a ∧ c.toNat = (match a with | .md5 => 0 | .sha1 => 1 | .sha256 => 2 | .sha384 => 3 | .sha512 => 4))
      ∨ (algOfCode c = none ∧ 4 < c.toNat) := by
  revert c; decide

theorem hexPair_length (b : Byte) : (hexPair b).length = 2 := rfl

/-- Parsing a rendered byte string gives it back (48_hex_converter.md R291, R293). -/
theorem unhex_hexPair (b : Byte) :
    BitVec.ofNat 8 (hexVal (hexChar (b.extractLsb' 4 4)) * 16 + hexVal (hexChar (b.extractLsb' 0 4))) = b
      ∧ isHex (hexChar (b.extractLsb' 4 4)) = true ∧ isHex (hexChar (b.extractLsb' 0 4)) = true := by
  revert b; decide +kernel

end Sys2Proof.Machine
end

