-- ==== Sys2Proof/Laws/Engines.lean ====
section
/-!
SUPPORT. The laws of the engine functions: widths of chaining values, what compression reads, the padded tail's length, and
how absorbing blocks composes.
-/
namespace Sys2Proof.Machine

/-! ## Chaining values fit their algorithm (10_state.md R22) -/

theorem getD_map_lt (l : List Word) (i : Nat) : ((l.map (BitVec.setWidth 64)).getD i 0).toNat < 2 ^ 32 := by
  rw [List.getD_eq_getElem?_getD, List.getElem?_map]
  cases l[i]? with
  | none => decide
  | some x =>
    have := x.isLt
    simp only [Option.map_some, Option.getD_some, BitVec.toNat_setWidth]
    omega

/-- Registers made from at most nw words of the algorithm's width fit it. -/
theorem chainOfWords_fits (a : Alg) (l : List Word) (hl : l.length ≤ stateWords a) : ChainFits a (chainOfWords l) := by
  intro i hi
  have h : chainGet (chainOfWords l) i = (l.map (BitVec.setWidth 64)).getD i 0 := by
    rcases i with _ | _ | _ | _ | _ | _ | _ | _ | i <;> first | rfl | omega
  rw [h]
  refine ⟨fun hn => ?_, fun _ => getD_map_lt l i⟩
  rw [List.getD_eq_getElem?_getD, List.getElem?_eq_none (by rw [List.length_map]; omega)]
  rfl

theorem fits_of_wide {a : Alg} (ha : a = .sha384 ∨ a = .sha512) (c : Chain) : ChainFits a c := by
  intro i hi
  rcases ha with rfl | rfl <;> refine ⟨fun hn => ?_, fun h => ?_⟩
  all_goals first
    | (simp only [stateWords] at hn; omega)
    | (simp only [wordWidth] at h; omega)

theorem zero_fits (a : Alg) : ChainFits a Chain.zero := by
  intro i hi
  rcases i with _ | _ | _ | _ | _ | _ | _ | _ | i <;>
    first | omega | exact ⟨fun _ => rfl, fun _ => by decide⟩

theorem iv_fits (a : Alg) : ChainFits a (iv a) := by
  cases a with
  | md5 => exact chainOfWords_fits _ _ (by decide)
  | sha1 => exact chainOfWords_fits _ _ (by decide)
  | sha256 => exact chainOfWords_fits _ _ (by decide)
  | sha384 => exact fits_of_wide (.inl rfl) _
  | sha512 => exact fits_of_wide (.inr rfl) _

/-- Compression leaves the widths and zeros of R22 (40_word_ops_and_padding.md R128). -/
theorem compress_fits (a : Alg) (c : Chain) (b : List Byte) : ChainFits a (compress a c b) := by
  cases a with
  | md5 => exact chainOfWords_fits _ _ (by simp [stateWords])
  | sha1 => exact chainOfWords_fits _ _ (by simp [stateWords])
  | sha256 => exact chainOfWords_fits _ _ (by simp [stateWords])
  | sha384 => exact fits_of_wide (.inl rfl) _
  | sha512 => exact fits_of_wide (.inr rfl) _

theorem finishHash_fits (a : Alg) (c : Chain) (len : Nat) (tail : List Byte) : ChainFits a (finishHash a c len tail) := by
  unfold finishHash
  dsimp only
  split <;> exact compress_fits _ _ _

/-! ## What compression reads -/

theorem take_drop_take {b : List Byte} {n k m : Nat} (h : k + m ≤ n) :
    ((b.take n).drop k).take m = (b.drop k).take m := by
  rw [List.drop_take, List.take_take, Nat.min_eq_left (by omega)]

theorem wordsLE_take (b : List Byte) {n : Nat} (h : 64 ≤ n) : wordsLE (b.take n) = wordsLE b := by
  unfold wordsLE
  refine List.map_congr_left fun j hj => ?_
  rw [take_drop_take (by simp only [List.mem_range] at hj; omega)]

theorem wordsBE_take (w : Nat) (b : List Byte) {n : Nat} (h : 16 * (w / 8) ≤ n) :
    wordsBE w (b.take n) = wordsBE w b := by
  unfold wordsBE
  refine List.map_congr_left fun j hj => ?_
  have hj : j < 16 := by simpa using hj
  have : w / 8 * j ≤ w / 8 * 15 := Nat.mul_le_mul_left _ (by omega)
  rw [take_drop_take (by omega)]

/-- Compression reads the first bs bytes of the block alone (R128). -/
theorem compress_take (a : Alg) (c : Chain) (b : List Byte) {n : Nat} (h : blockSize a ≤ n) :
    compress a c (b.take n) = compress a c b := by
  cases a with
  | md5 =>
    have e : expandMd5 (b.take n) = expandMd5 b := by unfold expandMd5; rw [wordsLE_take b h]
    simp only [compress, compressMd5, md5Rounds, e]
  | sha1 =>
    have e : expandSha1 (b.take n) = expandSha1 b := by unfold expandSha1; rw [wordsBE_take 32 b h]
    simp only [compress, compressSha1, sha1Rounds, e]
  | sha256 =>
    have e : expandSha256 (b.take n) = expandSha256 b := by unfold expandSha256; rw [wordsBE_take 32 b h]
    simp only [compress, compressSha256, sha256Rounds, e]
  | sha384 =>
    have e : expandSha512 (b.take n) = expandSha512 b := by unfold expandSha512; rw [wordsBE_take 64 b h]
    simp only [compress, compressSha512, sha512Rounds, e]
  | sha512 =>
    have e : expandSha512 (b.take n) = expandSha512 b := by unfold expandSha512; rw [wordsBE_take 64 b h]
    simp only [compress, compressSha512, sha512Rounds, e]

/-! ## The padded tail -/

theorem pad_length_eq (a : Alg) (total : Nat) (tail : List Byte) :
    (pad a total tail).length = tail.length + 1 + padZeros a tail.length + lengthField a := by
  simp [pad]; omega

/-- The padded tail is one block or two (40_word_ops_and_padding.md R123). -/
theorem pad_length (a : Alg) (total : Nat) (tail : List Byte) (h : tail.length < blockSize a) :
    (pad a total tail).length =
      if tail.length + lengthField a + 1 ≤ blockSize a then blockSize a else 2 * blockSize a := by
  rw [pad_length_eq]
  unfold padZeros
  by_cases hc : tail.length + lengthField a + 1 ≤ blockSize a
  · rw [if_pos hc]
    cases a <;> simp only [blockSize, lengthField] at h hc ⊢ <;> omega
  · rw [if_neg hc]
    cases a <;> simp only [blockSize, lengthField] at h hc ⊢ <;> omega

/-! ## Absorbing blocks -/

theorem absorb_append_left (a : Alg) (c : Chain) (k : Nat) (m m' : List Byte) (h : k * blockSize a ≤ m.length) :
    absorb a c k (m ++ m') = absorb a c k m := by
  induction k generalizing c m with
  | zero => rfl
  | succ k ih =>
    have hb : blockSize a ≤ m.length := by rw [Nat.succ_mul] at h; omega
    simp only [absorb]
    rw [List.take_append_of_le_length hb, List.drop_append_of_le_length hb, ih]
    rw [List.length_drop, Nat.succ_mul] at *
    omega

theorem absorb_add (a : Alg) (c : Chain) (i j : Nat) (m : List Byte) :
    absorb a c (i + j) m = absorb a (absorb a c i m) j (m.drop (i * blockSize a)) := by
  induction i generalizing c m with
  | zero => simp [absorb]
  | succ i ih =>
    rw [show i + 1 + j = (i + j) + 1 by omega]
    simp only [absorb]
    rw [ih, List.drop_drop, Nat.succ_mul, Nat.add_comm (blockSize a)]

/-- Absorbing one more whole block. -/
theorem chainOf_append_block (a : Alg) (m b : List Byte) (hm : m.length % blockSize a = 0) (hb : b.length = blockSize a) :
    chainOf a (m ++ b) = compress a (chainOf a m) b := by
  have hp := blockSize_pos a
  obtain ⟨k, hk⟩ := Nat.dvd_of_mod_eq_zero hm
  have hk' : m.length = k * blockSize a := by rw [hk, Nat.mul_comm]
  unfold chainOf
  rw [List.length_append, hb, hk', Nat.add_div_right _ hp, Nat.mul_div_cancel _ hp, absorb_add,
    absorb_append_left a _ k m b (by omega)]
  rw [show k * blockSize a = m.length from hk'.symm, List.drop_left]
  simp [absorb, List.take_of_length_le (Nat.le_of_eq hb)]

/-- The digest of whole blocks and a tail: finish the blocks' chaining value with the tail (R127). -/
theorem digest_append_tail (a : Alg) (m tail : List Byte) (hm : m.length % blockSize a = 0)
    (ht : tail.length < blockSize a) :
    digest a (m ++ tail) = serialize a (finishHash a (chainOf a m) (8 * m.length % 2 ^ 128) tail) := by
  have hp := blockSize_pos a
  obtain ⟨k, hk⟩ := Nat.dvd_of_mod_eq_zero hm
  have hk' : m.length = k * blockSize a := by rw [hk, Nat.mul_comm]
  have hq : (m ++ tail).length / blockSize a = k := by
    rw [List.length_append, hk', Nat.mul_comm, Nat.mul_add_div hp, Nat.div_eq_of_lt ht, Nat.add_zero]
  unfold digest chainOf
  simp only [hq, absorb_append_left a _ k m tail (by omega), hk', Nat.mul_div_cancel k hp]
  rw [show k * blockSize a = m.length from hk'.symm, List.drop_left, hk, Nat.mul_assoc]

end Sys2Proof.Machine
end

