-- ==== Sys2Proof/Laws/State.lean ====
section
/-!
SUPPORT. The state's small lemmas: for each named update of the state, what every field is after it.
-/
namespace Sys2Proof.Machine

/-! ## finish -/

@[simp] theorem State.finish_busy (s : State) : s.finish.busy = false := rfl
@[simp] theorem State.finish_done (s : State) : s.finish.done = true := rfl
@[simp] theorem State.finish_err (s : State) : s.finish.err = s.err := rfl
@[simp] theorem State.finish_ovr (s : State) : s.finish.ovr = s.ovr := rfl
@[simp] theorem State.finish_errCode (s : State) : s.finish.errCode = s.errCode := rfl
@[simp] theorem State.finish_alg (s : State) : s.finish.alg = s.alg := rfl
@[simp] theorem State.finish_phase (s : State) : s.finish.phase = s.phase := rfl
@[simp] theorem State.finish_dlen (s : State) : s.finish.dlen = s.dlen := rfl
@[simp] theorem State.finish_h (s : State) : s.finish.h = s.h := rfl
@[simp] theorem State.finish_len (s : State) : s.finish.len = s.len := rfl
@[simp] theorem State.finish_k0 (s : State) : s.finish.k0 = s.k0 := rfl
@[simp] theorem State.finish_pend (s : State) : s.finish.pend = s.pend := rfl
@[simp] theorem State.finish_mem (s : State) : s.finish.mem = s.mem := rfl
@[simp] theorem State.finish_resetHeld (s : State) : s.finish.resetHeld = s.resetHeld := rfl
@[simp] theorem State.finish_env (s : State) : s.finish.env = s.env := rfl

/-! ## raise -/

@[simp] theorem State.raise_busy (s : State) (e : CmdError) : (s.raise e).busy = false := rfl
@[simp] theorem State.raise_done (s : State) (e : CmdError) : (s.raise e).done = true := rfl
@[simp] theorem State.raise_err (s : State) (e : CmdError) : (s.raise e).err = true := rfl
@[simp] theorem State.raise_ovr (s : State) (e : CmdError) : (s.raise e).ovr = s.ovr := rfl
@[simp] theorem State.raise_errCode (s : State) (e : CmdError) : (s.raise e).errCode = errCodeOf e := rfl
@[simp] theorem State.raise_alg (s : State) (e : CmdError) : (s.raise e).alg = s.alg := rfl
@[simp] theorem State.raise_phase (s : State) (e : CmdError) : (s.raise e).phase = .idle := rfl
@[simp] theorem State.raise_dlen (s : State) (e : CmdError) : (s.raise e).dlen = s.dlen := rfl
@[simp] theorem State.raise_h (s : State) (e : CmdError) : (s.raise e).h = s.h := rfl
@[simp] theorem State.raise_len (s : State) (e : CmdError) : (s.raise e).len = s.len := rfl
@[simp] theorem State.raise_k0 (s : State) (e : CmdError) : (s.raise e).k0 = Vector.replicate 128 0 := rfl
@[simp] theorem State.raise_pend (s : State) (e : CmdError) : (s.raise e).pend = s.pend := rfl
@[simp] theorem State.raise_mem (s : State) (e : CmdError) : (s.raise e).mem = s.mem := rfl
@[simp] theorem State.raise_resetHeld (s : State) (e : CmdError) : (s.raise e).resetHeld = s.resetHeld := rfl
@[simp] theorem State.raise_env (s : State) (e : CmdError) : (s.raise e).env = s.env := rfl

/-! ## accept -/

@[simp] theorem State.accept_busy (s : State) (v : Word) : (s.accept v).busy = true := rfl
@[simp] theorem State.accept_done (s : State) (v : Word) : (s.accept v).done = false := rfl
@[simp] theorem State.accept_err (s : State) (v : Word) : (s.accept v).err = false := rfl
@[simp] theorem State.accept_ovr (s : State) (v : Word) : (s.accept v).ovr = s.ovr := rfl
@[simp] theorem State.accept_errCode (s : State) (v : Word) : (s.accept v).errCode = 0 := rfl
@[simp] theorem State.accept_alg (s : State) (v : Word) : (s.accept v).alg = s.alg := rfl
@[simp] theorem State.accept_phase (s : State) (v : Word) : (s.accept v).phase = s.phase := rfl
@[simp] theorem State.accept_dlen (s : State) (v : Word) : (s.accept v).dlen = s.dlen := rfl
@[simp] theorem State.accept_h (s : State) (v : Word) : (s.accept v).h = s.h := rfl
@[simp] theorem State.accept_len (s : State) (v : Word) : (s.accept v).len = s.len := rfl
@[simp] theorem State.accept_k0 (s : State) (v : Word) : (s.accept v).k0 = s.k0 := rfl
@[simp] theorem State.accept_pend (s : State) (v : Word) : (s.accept v).pend = v := rfl
@[simp] theorem State.accept_mem (s : State) (v : Word) : (s.accept v).mem = s.mem := rfl
@[simp] theorem State.accept_resetHeld (s : State) (v : Word) : (s.accept v).resetHeld = s.resetHeld := rfl
@[simp] theorem State.accept_env (s : State) (v : Word) : (s.accept v).env = s.env.drawLatency := rfl

/-! ## storeBytes -/

@[simp] theorem State.storeBytes_busy (s : State) (base : Nat) (b : List Byte) : (s.storeBytes base b).busy = s.busy := rfl
@[simp] theorem State.storeBytes_done (s : State) (base : Nat) (b : List Byte) : (s.storeBytes base b).done = s.done := rfl
@[simp] theorem State.storeBytes_err (s : State) (base : Nat) (b : List Byte) : (s.storeBytes base b).err = s.err := rfl
@[simp] theorem State.storeBytes_ovr (s : State) (base : Nat) (b : List Byte) : (s.storeBytes base b).ovr = s.ovr := rfl
@[simp] theorem State.storeBytes_errCode (s : State) (base : Nat) (b : List Byte) : (s.storeBytes base b).errCode = s.errCode := rfl
@[simp] theorem State.storeBytes_alg (s : State) (base : Nat) (b : List Byte) : (s.storeBytes base b).alg = s.alg := rfl
@[simp] theorem State.storeBytes_phase (s : State) (base : Nat) (b : List Byte) : (s.storeBytes base b).phase = s.phase := rfl
@[simp] theorem State.storeBytes_dlen (s : State) (base : Nat) (b : List Byte) : (s.storeBytes base b).dlen = s.dlen := rfl
@[simp] theorem State.storeBytes_h (s : State) (base : Nat) (b : List Byte) : (s.storeBytes base b).h = s.h := rfl
@[simp] theorem State.storeBytes_len (s : State) (base : Nat) (b : List Byte) : (s.storeBytes base b).len = s.len := rfl
@[simp] theorem State.storeBytes_k0 (s : State) (base : Nat) (b : List Byte) : (s.storeBytes base b).k0 = s.k0 := rfl
@[simp] theorem State.storeBytes_pend (s : State) (base : Nat) (b : List Byte) : (s.storeBytes base b).pend = s.pend := rfl
@[simp] theorem State.storeBytes_mem (s : State) (base : Nat) (b : List Byte) : (s.storeBytes base b).mem = Memory.store s.mem base b := rfl
@[simp] theorem State.storeBytes_resetHeld (s : State) (base : Nat) (b : List Byte) : (s.storeBytes base b).resetHeld = s.resetHeld := rfl
@[simp] theorem State.storeBytes_env (s : State) (base : Nat) (b : List Byte) : (s.storeBytes base b).env = s.env := rfl

/-! ## addLen -/

@[simp] theorem State.addLen_busy (s : State) (n : Nat) : (s.addLen n).busy = s.busy := rfl
@[simp] theorem State.addLen_done (s : State) (n : Nat) : (s.addLen n).done = s.done := rfl
@[simp] theorem State.addLen_err (s : State) (n : Nat) : (s.addLen n).err = s.err := rfl
@[simp] theorem State.addLen_ovr (s : State) (n : Nat) : (s.addLen n).ovr = s.ovr := rfl
@[simp] theorem State.addLen_errCode (s : State) (n : Nat) : (s.addLen n).errCode = s.errCode := rfl
@[simp] theorem State.addLen_alg (s : State) (n : Nat) : (s.addLen n).alg = s.alg := rfl
@[simp] theorem State.addLen_phase (s : State) (n : Nat) : (s.addLen n).phase = s.phase := rfl
@[simp] theorem State.addLen_dlen (s : State) (n : Nat) : (s.addLen n).dlen = s.dlen := rfl
@[simp] theorem State.addLen_h (s : State) (n : Nat) : (s.addLen n).h = s.h := rfl
@[simp] theorem State.addLen_len (s : State) (n : Nat) : (s.addLen n).len = s.len + BitVec.ofNat 128 (8 * n) := rfl
@[simp] theorem State.addLen_k0 (s : State) (n : Nat) : (s.addLen n).k0 = s.k0 := rfl
@[simp] theorem State.addLen_pend (s : State) (n : Nat) : (s.addLen n).pend = s.pend := rfl
@[simp] theorem State.addLen_mem (s : State) (n : Nat) : (s.addLen n).mem = s.mem := rfl
@[simp] theorem State.addLen_resetHeld (s : State) (n : Nat) : (s.addLen n).resetHeld = s.resetHeld := rfl
@[simp] theorem State.addLen_env (s : State) (n : Nat) : (s.addLen n).env = s.env := rfl

/-! ## setDigest -/

@[simp] theorem State.setDigest_busy (s : State) (a : Alg) (d : List Byte) : (s.setDigest a d).busy = s.busy := rfl
@[simp] theorem State.setDigest_done (s : State) (a : Alg) (d : List Byte) : (s.setDigest a d).done = s.done := rfl
@[simp] theorem State.setDigest_err (s : State) (a : Alg) (d : List Byte) : (s.setDigest a d).err = s.err := rfl
@[simp] theorem State.setDigest_ovr (s : State) (a : Alg) (d : List Byte) : (s.setDigest a d).ovr = s.ovr := rfl
@[simp] theorem State.setDigest_errCode (s : State) (a : Alg) (d : List Byte) : (s.setDigest a d).errCode = s.errCode := rfl
@[simp] theorem State.setDigest_alg (s : State) (a : Alg) (d : List Byte) : (s.setDigest a d).alg = s.alg := rfl
@[simp] theorem State.setDigest_phase (s : State) (a : Alg) (d : List Byte) : (s.setDigest a d).phase = s.phase := rfl
@[simp] theorem State.setDigest_dlen (s : State) (a : Alg) (d : List Byte) : (s.setDigest a d).dlen = BitVec.ofNat 7 (outputLength a) := rfl
@[simp] theorem State.setDigest_h (s : State) (a : Alg) (d : List Byte) : (s.setDigest a d).h = s.h := rfl
@[simp] theorem State.setDigest_len (s : State) (a : Alg) (d : List Byte) : (s.setDigest a d).len = s.len := rfl
@[simp] theorem State.setDigest_k0 (s : State) (a : Alg) (d : List Byte) : (s.setDigest a d).k0 = s.k0 := rfl
@[simp] theorem State.setDigest_pend (s : State) (a : Alg) (d : List Byte) : (s.setDigest a d).pend = s.pend := rfl
@[simp] theorem State.setDigest_mem (s : State) (a : Alg) (d : List Byte) : (s.setDigest a d).mem = Memory.store s.mem digestBase (fit 64 d) := rfl
@[simp] theorem State.setDigest_resetHeld (s : State) (a : Alg) (d : List Byte) : (s.setDigest a d).resetHeld = s.resetHeld := rfl
@[simp] theorem State.setDigest_env (s : State) (a : Alg) (d : List Byte) : (s.setDigest a d).env = s.env := rfl

/-! ## startSession -/

@[simp] theorem State.startSession_busy (s : State) (a : Alg) (p : Phase) : (s.startSession a p).busy = s.busy := rfl
@[simp] theorem State.startSession_done (s : State) (a : Alg) (p : Phase) : (s.startSession a p).done = s.done := rfl
@[simp] theorem State.startSession_err (s : State) (a : Alg) (p : Phase) : (s.startSession a p).err = s.err := rfl
@[simp] theorem State.startSession_ovr (s : State) (a : Alg) (p : Phase) : (s.startSession a p).ovr = s.ovr := rfl
@[simp] theorem State.startSession_errCode (s : State) (a : Alg) (p : Phase) : (s.startSession a p).errCode = s.errCode := rfl
@[simp] theorem State.startSession_alg (s : State) (a : Alg) (p : Phase) : (s.startSession a p).alg = a := rfl
@[simp] theorem State.startSession_phase (s : State) (a : Alg) (p : Phase) : (s.startSession a p).phase = p := rfl
@[simp] theorem State.startSession_dlen (s : State) (a : Alg) (p : Phase) : (s.startSession a p).dlen = s.dlen := rfl
@[simp] theorem State.startSession_h (s : State) (a : Alg) (p : Phase) : (s.startSession a p).h = iv a := rfl
@[simp] theorem State.startSession_len (s : State) (a : Alg) (p : Phase) : (s.startSession a p).len = 0 := rfl
@[simp] theorem State.startSession_k0 (s : State) (a : Alg) (p : Phase) : (s.startSession a p).k0 = Vector.replicate 128 0 := rfl
@[simp] theorem State.startSession_pend (s : State) (a : Alg) (p : Phase) : (s.startSession a p).pend = s.pend := rfl
@[simp] theorem State.startSession_mem (s : State) (a : Alg) (p : Phase) : (s.startSession a p).mem = s.mem := rfl
@[simp] theorem State.startSession_resetHeld (s : State) (a : Alg) (p : Phase) : (s.startSession a p).resetHeld = s.resetHeld := rfl
@[simp] theorem State.startSession_env (s : State) (a : Alg) (p : Phase) : (s.startSession a p).env = s.env := rfl

/-! ## overrun -/

@[simp] theorem State.overrun_busy (s : State) : s.overrun.busy = s.busy := rfl
@[simp] theorem State.overrun_done (s : State) : s.overrun.done = s.done := rfl
@[simp] theorem State.overrun_err (s : State) : s.overrun.err = s.err := rfl
@[simp] theorem State.overrun_ovr (s : State) : s.overrun.ovr = true := rfl
@[simp] theorem State.overrun_errCode (s : State) : s.overrun.errCode = s.errCode := rfl
@[simp] theorem State.overrun_alg (s : State) : s.overrun.alg = s.alg := rfl
@[simp] theorem State.overrun_phase (s : State) : s.overrun.phase = s.phase := rfl
@[simp] theorem State.overrun_dlen (s : State) : s.overrun.dlen = s.dlen := rfl
@[simp] theorem State.overrun_h (s : State) : s.overrun.h = s.h := rfl
@[simp] theorem State.overrun_len (s : State) : s.overrun.len = s.len := rfl
@[simp] theorem State.overrun_k0 (s : State) : s.overrun.k0 = s.k0 := rfl
@[simp] theorem State.overrun_pend (s : State) : s.overrun.pend = s.pend := rfl
@[simp] theorem State.overrun_mem (s : State) : s.overrun.mem = s.mem := rfl
@[simp] theorem State.overrun_resetHeld (s : State) : s.overrun.resetHeld = s.resetHeld := rfl
@[simp] theorem State.overrun_env (s : State) : s.overrun.env = s.env := rfl

/-! ## answer -/

@[simp] theorem State.answer_busy (s : State) (b : BusAnswer) : (s.answer b).busy = s.busy := rfl
@[simp] theorem State.answer_done (s : State) (b : BusAnswer) : (s.answer b).done = s.done := rfl
@[simp] theorem State.answer_err (s : State) (b : BusAnswer) : (s.answer b).err = s.err := rfl
@[simp] theorem State.answer_ovr (s : State) (b : BusAnswer) : (s.answer b).ovr = s.ovr := rfl
@[simp] theorem State.answer_errCode (s : State) (b : BusAnswer) : (s.answer b).errCode = s.errCode := rfl
@[simp] theorem State.answer_alg (s : State) (b : BusAnswer) : (s.answer b).alg = s.alg := rfl
@[simp] theorem State.answer_phase (s : State) (b : BusAnswer) : (s.answer b).phase = s.phase := rfl
@[simp] theorem State.answer_dlen (s : State) (b : BusAnswer) : (s.answer b).dlen = s.dlen := rfl
@[simp] theorem State.answer_h (s : State) (b : BusAnswer) : (s.answer b).h = s.h := rfl
@[simp] theorem State.answer_len (s : State) (b : BusAnswer) : (s.answer b).len = s.len := rfl
@[simp] theorem State.answer_k0 (s : State) (b : BusAnswer) : (s.answer b).k0 = s.k0 := rfl
@[simp] theorem State.answer_pend (s : State) (b : BusAnswer) : (s.answer b).pend = s.pend := rfl
@[simp] theorem State.answer_mem (s : State) (b : BusAnswer) : (s.answer b).mem = s.mem := rfl
@[simp] theorem State.answer_resetHeld (s : State) (b : BusAnswer) : (s.answer b).resetHeld = s.resetHeld := rfl
@[simp] theorem State.answer_env (s : State) (b : BusAnswer) : (s.answer b).env = { s.env with answers := b :: s.env.answers } := rfl

/-! ## setHost -/

@[simp] theorem State.setHost_busy (s : State) (ops : List HostOp) : (s.setHost ops).busy = s.busy := rfl
@[simp] theorem State.setHost_done (s : State) (ops : List HostOp) : (s.setHost ops).done = s.done := rfl
@[simp] theorem State.setHost_err (s : State) (ops : List HostOp) : (s.setHost ops).err = s.err := rfl
@[simp] theorem State.setHost_ovr (s : State) (ops : List HostOp) : (s.setHost ops).ovr = s.ovr := rfl
@[simp] theorem State.setHost_errCode (s : State) (ops : List HostOp) : (s.setHost ops).errCode = s.errCode := rfl
@[simp] theorem State.setHost_alg (s : State) (ops : List HostOp) : (s.setHost ops).alg = s.alg := rfl
@[simp] theorem State.setHost_phase (s : State) (ops : List HostOp) : (s.setHost ops).phase = s.phase := rfl
@[simp] theorem State.setHost_dlen (s : State) (ops : List HostOp) : (s.setHost ops).dlen = s.dlen := rfl
@[simp] theorem State.setHost_h (s : State) (ops : List HostOp) : (s.setHost ops).h = s.h := rfl
@[simp] theorem State.setHost_len (s : State) (ops : List HostOp) : (s.setHost ops).len = s.len := rfl
@[simp] theorem State.setHost_k0 (s : State) (ops : List HostOp) : (s.setHost ops).k0 = s.k0 := rfl
@[simp] theorem State.setHost_pend (s : State) (ops : List HostOp) : (s.setHost ops).pend = s.pend := rfl
@[simp] theorem State.setHost_mem (s : State) (ops : List HostOp) : (s.setHost ops).mem = s.mem := rfl
@[simp] theorem State.setHost_resetHeld (s : State) (ops : List HostOp) : (s.setHost ops).resetHeld = s.resetHeld := rfl
@[simp] theorem State.setHost_env (s : State) (ops : List HostOp) : (s.setHost ops).env = { s.env with host := ops } := rfl

/-! ## tick and countDraw: only the environment -/

@[simp] theorem State.tick_busy (s : State) : s.tick.busy = s.busy := by
  unfold State.tick; split <;> rfl
@[simp] theorem State.tick_done (s : State) : s.tick.done = s.done := by
  unfold State.tick; split <;> rfl
@[simp] theorem State.tick_err (s : State) : s.tick.err = s.err := by
  unfold State.tick; split <;> rfl
@[simp] theorem State.tick_ovr (s : State) : s.tick.ovr = s.ovr := by
  unfold State.tick; split <;> rfl
@[simp] theorem State.tick_errCode (s : State) : s.tick.errCode = s.errCode := by
  unfold State.tick; split <;> rfl
@[simp] theorem State.tick_alg (s : State) : s.tick.alg = s.alg := by
  unfold State.tick; split <;> rfl
@[simp] theorem State.tick_phase (s : State) : s.tick.phase = s.phase := by
  unfold State.tick; split <;> rfl
@[simp] theorem State.tick_dlen (s : State) : s.tick.dlen = s.dlen := by
  unfold State.tick; split <;> rfl
@[simp] theorem State.tick_h (s : State) : s.tick.h = s.h := by
  unfold State.tick; split <;> rfl
@[simp] theorem State.tick_len (s : State) : s.tick.len = s.len := by
  unfold State.tick; split <;> rfl
@[simp] theorem State.tick_k0 (s : State) : s.tick.k0 = s.k0 := by
  unfold State.tick; split <;> rfl
@[simp] theorem State.tick_pend (s : State) : s.tick.pend = s.pend := by
  unfold State.tick; split <;> rfl
@[simp] theorem State.tick_mem (s : State) : s.tick.mem = s.mem := by
  unfold State.tick; split <;> rfl
@[simp] theorem State.tick_resetHeld (s : State) : s.tick.resetHeld = s.resetHeld := by
  unfold State.tick; split <;> rfl
@[simp] theorem State.countDraw_busy (s : State) (a : BitVec 12) : (s.countDraw a).busy = s.busy := by
  unfold State.countDraw; split <;> rfl
@[simp] theorem State.countDraw_done (s : State) (a : BitVec 12) : (s.countDraw a).done = s.done := by
  unfold State.countDraw; split <;> rfl
@[simp] theorem State.countDraw_err (s : State) (a : BitVec 12) : (s.countDraw a).err = s.err := by
  unfold State.countDraw; split <;> rfl
@[simp] theorem State.countDraw_ovr (s : State) (a : BitVec 12) : (s.countDraw a).ovr = s.ovr := by
  unfold State.countDraw; split <;> rfl
@[simp] theorem State.countDraw_errCode (s : State) (a : BitVec 12) : (s.countDraw a).errCode = s.errCode := by
  unfold State.countDraw; split <;> rfl
@[simp] theorem State.countDraw_alg (s : State) (a : BitVec 12) : (s.countDraw a).alg = s.alg := by
  unfold State.countDraw; split <;> rfl
@[simp] theorem State.countDraw_phase (s : State) (a : BitVec 12) : (s.countDraw a).phase = s.phase := by
  unfold State.countDraw; split <;> rfl
@[simp] theorem State.countDraw_dlen (s : State) (a : BitVec 12) : (s.countDraw a).dlen = s.dlen := by
  unfold State.countDraw; split <;> rfl
@[simp] theorem State.countDraw_h (s : State) (a : BitVec 12) : (s.countDraw a).h = s.h := by
  unfold State.countDraw; split <;> rfl
@[simp] theorem State.countDraw_len (s : State) (a : BitVec 12) : (s.countDraw a).len = s.len := by
  unfold State.countDraw; split <;> rfl
@[simp] theorem State.countDraw_k0 (s : State) (a : BitVec 12) : (s.countDraw a).k0 = s.k0 := by
  unfold State.countDraw; split <;> rfl
@[simp] theorem State.countDraw_pend (s : State) (a : BitVec 12) : (s.countDraw a).pend = s.pend := by
  unfold State.countDraw; split <;> rfl
@[simp] theorem State.countDraw_mem (s : State) (a : BitVec 12) : (s.countDraw a).mem = s.mem := by
  unfold State.countDraw; split <;> rfl
@[simp] theorem State.countDraw_resetHeld (s : State) (a : BitVec 12) : (s.countDraw a).resetHeld = s.resetHeld := by
  unfold State.countDraw; split <;> rfl

/-! ## The environment after a turn -/

@[simp] theorem State.tick_env_host (s : State) : s.tick.env.host = s.env.host := by
  unfold State.tick; split <;> rfl
@[simp] theorem State.tick_env_answers (s : State) : s.tick.env.answers = s.env.answers := by
  unfold State.tick; split <;> rfl
@[simp] theorem State.tick_env_latency (s : State) : s.tick.env.latency = s.env.latency := by
  unfold State.tick; split <;> rfl
@[simp] theorem State.tick_env_draws (s : State) : s.tick.env.draws = s.env.draws := by
  unfold State.tick; split <;> rfl
@[simp] theorem State.tick_env_resets (s : State) : s.tick.env.resets = s.env.resets := by
  unfold State.tick; split <;> rfl
theorem State.tick_env_countdown (s : State) (h : s.busy = true) : s.tick.env.countdown = s.env.countdown - 1 := by
  simp [State.tick, h]
@[simp] theorem State.countDraw_env_host (s : State) (a : BitVec 12) : (s.countDraw a).env.host = s.env.host := by
  unfold State.countDraw; split <;> rfl
@[simp] theorem State.countDraw_env_answers (s : State) (a : BitVec 12) : (s.countDraw a).env.answers = s.env.answers := by
  unfold State.countDraw; split <;> rfl
@[simp] theorem State.countDraw_env_latency (s : State) (a : BitVec 12) : (s.countDraw a).env.latency = s.env.latency := by
  unfold State.countDraw; split <;> rfl
@[simp] theorem State.countDraw_env_countdown (s : State) (a : BitVec 12) :
    (s.countDraw a).env.countdown = s.env.countdown := by
  unfold State.countDraw; split <;> rfl
@[simp] theorem State.countDraw_env_resets (s : State) (a : BitVec 12) : (s.countDraw a).env.resets = s.env.resets := by
  unfold State.countDraw; split <;> rfl
@[simp] theorem Env.drawLatency_host (e : Env) : e.drawLatency.host = e.host := by
  unfold Env.drawLatency; split <;> rfl
@[simp] theorem Env.drawLatency_answers (e : Env) : e.drawLatency.answers = e.answers := by
  unfold Env.drawLatency; split <;> rfl
@[simp] theorem Env.drawLatency_resets (e : Env) : e.drawLatency.resets = e.resets := by
  unfold Env.drawLatency; split <;> rfl

end Sys2Proof.Machine
end

