-- ==== Sys2Proof/Laws/Memory.lean ====
section
/-!
SUPPORT. The laws of memory: a read after a write, the bytes a write leaves alone, and the canonical form.
-/
namespace Sys2Proof.Machine

theorem mem_cellsAt {base : Nat} {b : List Byte} {c : Host.Cell} (h : c ∈ cellsAt base b) :
    base ≤ c.1 ∧ c.1 < base + b.length := by
  induction b generalizing base with
  | nil => simp [cellsAt] at h
  | cons x b ih =>
    simp only [cellsAt, List.mem_cons] at h
    rcases h with rfl | h
    · simp
    · have := ih h
      simp only [List.length_cons]
      omega

theorem cellsAt_rising (base : Nat) (b : List Byte) : (cellsAt base b).Pairwise (fun x y => x.1 < y.1) := by
  induction b generalizing base with
  | nil => exact List.Pairwise.nil
  | cons x b ih => exact List.Pairwise.cons (fun c hc => by have := mem_cellsAt hc; simp; omega) (ih _)

/-- Every memory operation keeps the canonical form: a write of buffer bytes does. -/
theorem Memory.store_wf {m : Memory} (hm : Memory.wf m) {base : Nat} {b : List Byte}
    (hb : ∀ a, base ≤ a → a < base + b.length → isBufferAddr a = true) : Memory.wf (Memory.store m base b) := by
  obtain ⟨hp, ha⟩ := hm
  refine ⟨?_, ?_⟩
  · unfold Memory.store
    rw [List.pairwise_append, List.pairwise_append]
    refine ⟨⟨hp.filter _, cellsAt_rising _ _, ?_⟩, hp.filter _, ?_⟩
    · intro x hx y hy
      have := mem_cellsAt hy
      simp only [List.mem_filter, decide_eq_true_eq] at hx
      omega
    · intro x hx y hy
      simp only [List.mem_append, List.mem_filter, decide_eq_true_eq] at hx hy
      rcases hx with hx | hx
      · omega
      · have := mem_cellsAt hx
        omega
  · intro c hc
    simp only [Memory.store, List.mem_append, List.mem_filter] at hc
    rcases hc with (⟨hc, -⟩ | hc) | ⟨hc, -⟩
    · exact ha c hc
    · have := mem_cellsAt hc
      exact hb _ this.1 this.2
    · exact ha c hc

theorem lookup_cellsAt_outside {base a : Nat} {b : List Byte} (h : a < base ∨ base + b.length ≤ a) :
    (cellsAt base b).lookup a = none := by
  induction b generalizing base with
  | nil => rfl
  | cons x b ih =>
    have hne : (a == base) = false := by simp only [List.length_cons] at h; simp; omega
    simp only [cellsAt, List.lookup, hne]
    exact ih (by simp only [List.length_cons] at h; omega)

theorem lookup_cellsAt_inside {base : Nat} {b : List Byte} {k : Nat} (h : k < b.length) :
    (cellsAt base b).lookup (base + k) = some b[k] := by
  induction b generalizing base k with
  | nil => simp at h
  | cons x b ih =>
    cases k with
    | zero => simp [cellsAt]
    | succ k =>
      have hne : (base + (k + 1) == base) = false := by simp
      simp only [cellsAt, List.lookup, hne, List.getElem_cons_succ]
      have := ih (base := base + 1) (k := k) (by simpa using h)
      rwa [show base + (k + 1) = base + 1 + k by omega]

theorem lookup_append (l m : Memory) (a : Nat) : (l ++ m).lookup a = (l.lookup a).or (m.lookup a) := by
  induction l with
  | nil => rfl
  | cons c l ih =>
    obtain ⟨k, v⟩ := c
    rw [List.cons_append, List.lookup_cons, List.lookup_cons, ih]
    cases a == k <;> rfl

theorem lookup_filter_keep {m : Memory} {p : Nat → Bool} {a : Nat} (h : p a = true) :
    (m.filter (fun c => p c.1)).lookup a = m.lookup a := by
  induction m with
  | nil => rfl
  | cons c m ih =>
    obtain ⟨k, v⟩ := c
    rw [List.filter_cons, List.lookup_cons]
    by_cases hk : a = k
    · subst hk; simp [h]
    · have hne : (a == k) = false := by simp [hk]
      cases hp : p k <;> simp [hne, ih, List.lookup_cons]

theorem lookup_filter_drop {m : Memory} {p : Nat → Bool} {a : Nat} (h : p a = false) :
    (m.filter (fun c => p c.1)).lookup a = none := by
  induction m with
  | nil => rfl
  | cons c m ih =>
    obtain ⟨k, v⟩ := c
    rw [List.filter_cons]
    by_cases hk : a = k
    · subst hk; simp [h, ih]
    · have hne : (a == k) = false := by simp [hk]
      cases hp : p k <;> simp [hne, ih, List.lookup_cons]

/-- A read after a write to the same place gives the byte written. -/
theorem Memory.find_store_inside (m : Memory) {base : Nat} {b : List Byte} {k : Nat} (h : k < b.length) :
    Memory.find (Memory.store m base b) (base + k) = some b[k] := by
  unfold Memory.find Memory.store
  rw [lookup_append, lookup_append, lookup_cellsAt_inside h,
    lookup_filter_drop (p := fun a => decide (a < base)) (by simp)]
  rfl

/-- A write leaves every other place alone. -/
theorem Memory.find_store_outside (m : Memory) {base a : Nat} {b : List Byte} (h : a < base ∨ base + b.length ≤ a) :
    Memory.find (Memory.store m base b) a = Memory.find m a := by
  unfold Memory.find Memory.store
  rw [lookup_append, lookup_append, lookup_cellsAt_outside h]
  rcases h with h | h
  · rw [lookup_filter_keep (p := fun x => decide (x < base)) (by simpa using h),
      lookup_filter_drop (p := fun x => decide (base + b.length ≤ x)) (by simp; omega)]
    cases m.lookup a <;> rfl
  · rw [lookup_filter_drop (p := fun x => decide (x < base)) (by simp; omega),
      lookup_filter_keep (p := fun x => decide (base + b.length ≤ x)) (by simpa using h)]
    rfl

/-- A buffer byte depends on the memory and on the last reset alone. -/
theorem State.byteAt_congr {s t : State} (hm : t.mem = s.mem) (hr : t.env.resets = s.env.resets) (a : Nat) :
    t.byteAt a = s.byteAt a := by
  unfold State.byteAt; rw [hm, hr]

theorem State.bytesAt_congr {s t : State} (hm : t.mem = s.mem) (hr : t.env.resets = s.env.resets) (a n : Nat) :
    t.bytesAt a n = s.bytesAt a n := by
  unfold State.bytesAt
  simp only [State.byteAt_congr hm hr]

theorem State.byteAt_storeBytes_inside (s : State) {base : Nat} {b : List Byte} {k : Nat} (h : k < b.length) :
    (s.storeBytes base b).byteAt (base + k) = b[k] := by
  unfold State.byteAt
  rw [State.storeBytes_mem, Memory.find_store_inside s.mem h]

theorem State.byteAt_storeBytes_outside (s : State) {base a : Nat} {b : List Byte}
    (h : a < base ∨ base + b.length ≤ a) : (s.storeBytes base b).byteAt a = s.byteAt a := by
  unfold State.byteAt
  rw [State.storeBytes_mem, Memory.find_store_outside s.mem h, State.storeBytes_env]

@[simp] theorem State.bytesAt_length (s : State) (base n : Nat) : (s.bytesAt base n).length = n := by
  simp [State.bytesAt]

@[simp] theorem State.bufBytes_length (s : State) (n : Nat) : (s.bufBytes n).length = n := by simp [State.bufBytes]

@[simp] theorem State.hexInBytes_length (s : State) (n : Nat) : (s.hexInBytes n).length = n := by
  simp [State.hexInBytes]

@[simp] theorem State.digestBytes_length (s : State) (n : Nat) : (s.digestBytes n).length = n := by
  simp [State.digestBytes]

theorem State.bytesAt_getElem (s : State) (base n k : Nat) (h : k < (s.bytesAt base n).length) :
    (s.bytesAt base n)[k] = s.byteAt (base + k) := by
  simp [State.bytesAt]

/-- Reading back a stored byte string. -/
theorem State.bytesAt_storeBytes (s : State) (base : Nat) (b : List Byte) :
    (s.storeBytes base b).bytesAt base b.length = b := by
  apply List.ext_getElem
  · simp
  · intro k h1 h2
    rw [State.bytesAt_getElem, State.byteAt_storeBytes_inside s h2]

/-- A byte string outside the stored one is unchanged. -/
theorem State.bytesAt_storeBytes_outside (s : State) {base a n : Nat} {b : List Byte}
    (h : a + n ≤ base ∨ base + b.length ≤ a) : (s.storeBytes base b).bytesAt a n = s.bytesAt a n := by
  apply List.ext_getElem
  · simp
  · intro k h1 h2
    have hk : k < n := by simpa using h1
    rw [State.bytesAt_getElem, State.bytesAt_getElem, State.byteAt_storeBytes_outside]
    omega

end Sys2Proof.Machine
end

