-- ==== Sys2Proof/Laws/Ops.lean ====
section
/-!
SUPPORT. The laws of the shared operations: for each, everything it can do when it answers a next state.
-/
namespace Sys2Proof.Machine

/-! ## The end of a command -/

theorem succeed_next {s t : State} (h : succeed s = .next t) : t = s.finish := by
  unfold succeed at h; exact (Host.Outcome.next.inj h).symm

theorem fail_next {s t : State} {e : CmdError} (h : fail s e = .next t) : t = s.raise e := by
  unfold fail at h; exact (Host.Outcome.next.inj h).symm

/-- What a command's successful completion wrote before `finish`, by command (rules as in Machine/Session, Hmac, Hex). -/
def CommandWrites (i : Instr) (s u : State) : Prop :=
  match i with
  | .nop => u = s
  | .init c => ∃ a, algOfCode c = some a ∧ u = s.startSession a .hash
  | .hinit c => ∃ a, algOfCode c = some a ∧ u = s.startSession a .hkey
  | .update => s.phase ≠ .idle ∧ u = (if s.phase = .hkey then s.absorbKeyBlock else s.absorbBlock)
  | .final n => s.phase ≠ .idle ∧ n.toNat < blockSize s.alg ∧ u = s.finalWrites n.toNat
  | .hex => u = s.storeBytes hexOutBase (fit 128 ((s.digestBytes s.dlen.toNat).flatMap hexPair))
  | .unhex n => n.toNat ≤ 64 ∧ (s.hexInBytes (2 * n.toNat)).all isHex = true
      ∧ u = s.storeBytes bufBase (unhexText (s.hexInBytes (2 * n.toNat)))
  | .clear => u = { s.zeroBuffers with
      h := Chain.zero, len := 0, alg := .md5, phase := .idle, dlen := 0, k0 := Vector.replicate 128 0, ovr := false }

/-- Everything a command can do: end in an error, or make its writes and finish. -/
theorem exec_cases {i : Instr} {s t : State} (h : exec i s = .next t) :
    (∃ e, t = s.raise e) ∨ ∃ u, t = u.finish ∧ CommandWrites i s u := by
  cases i with
  | nop => exact .inr ⟨s, succeed_next h, rfl⟩
  | init c =>
    simp only [exec, execInit] at h
    split at h
    · next a ha => exact .inr ⟨_, succeed_next h, a, ha, rfl⟩
    · exact .inl ⟨_, fail_next h⟩
  | hinit c =>
    simp only [exec, execHinit] at h
    split at h
    · next a ha => exact .inr ⟨_, succeed_next h, a, ha, rfl⟩
    · exact .inl ⟨_, fail_next h⟩
  | update =>
    simp only [exec, execUpdate] at h
    split at h <;> rename_i hp
    · exact .inl ⟨_, fail_next h⟩
    all_goals exact .inr ⟨_, succeed_next h, by simp [hp], by simp [hp]⟩
  | final n =>
    simp only [exec, execFinal] at h
    split at h
    · exact .inl ⟨_, fail_next h⟩
    · split at h
      · exact .inl ⟨_, fail_next h⟩
      · next hp hn => exact .inr ⟨_, succeed_next h, hp, by omega, rfl⟩
  | hex => exact .inr ⟨_, succeed_next h, rfl⟩
  | unhex n =>
    simp only [exec, execUnhex] at h
    split at h
    · exact .inl ⟨_, fail_next h⟩
    · split at h
      · next hn hx => exact .inr ⟨_, succeed_next h, by omega, hx, rfl⟩
      · exact .inl ⟨_, fail_next h⟩
  | clear => exact .inr ⟨_, succeed_next h, rfl⟩

/-- Everything the engine's step can do: the word's own error, or the decoded command. -/
theorem engineStep_cases {s t : State} (h : engineStep s = .next t) :
    (∃ e, t = s.raise e) ∨ ∃ i, decode s.pend = .instr i ∧ exec i s = .next t := by
  unfold engineStep at h
  split at h
  · next i hi => exact .inr ⟨i, hi, h⟩
  · exact .inl ⟨_, fail_next h⟩

/-! ## The bus -/

theorem SameCore.refl (s : State) : SameCore s s := ⟨rfl, rfl⟩

theorem SameCore.trans {s t u : State} (h : SameCore s t) (h' : SameCore t u) : SameCore s u := by
  refine ⟨?_, h'.2.trans h.2⟩
  have h1 := h'.1
  rw [h.1] at h1
  exact h1

/-- Two states with the same core agree on every buffer byte. -/
theorem SameCore.byteAt {s t : State} (h : SameCore s t) (a : Nat) : t.byteAt a = s.byteAt a :=
  State.byteAt_congr (by rw [h.1]) h.2 a

theorem tick_sameCore (s : State) : SameCore s s.tick := by
  unfold State.tick; split <;> exact ⟨rfl, rfl⟩

theorem setHost_sameCore (s : State) (ops : List HostOp) : SameCore s (s.setHost ops) := ⟨rfl, rfl⟩

theorem answer_sameCore (s : State) (b : BusAnswer) : SameCore s (s.answer b) := ⟨rfl, rfl⟩

theorem countDraw_sameCore (s : State) (a : BitVec 12) : SameCore s (s.countDraw a) := by
  unfold State.countDraw; split <;> exact ⟨rfl, rfl⟩

/-- A read changes the environment alone (20_memory.md R69). -/
theorem busRead_sameCore (s : State) (addr : BitVec 12) (size : Nat) : SameCore s (busRead s addr size) := by
  unfold busRead
  split
  · exact (countDraw_sameCore s addr).trans (answer_sameCore _ _)
  · exact answer_sameCore _ _

/-- Where the writable registers lie in the window (20_memory.md R63). -/
theorem regAt_writable (a : Nat) (ha : a < 4096) (h4 : a % 4 = 0) :
    ((regAt a).1 = .cmd → a = 0x008)
      ∧ ((regAt a).1 = .buf → bufBase + (regAt a).2 = a ∧ 0x100 ≤ a ∧ a < 0x180)
      ∧ ((regAt a).1 = .hexIn → hexInBase + (regAt a).2 = a ∧ 0x280 ≤ a ∧ a < 0x300) := by
  have h : ∀ q < 32, ∀ r < 32,
      ((regAt (4 * (32 * q + r))).1 = .cmd → 4 * (32 * q + r) = 0x008)
        ∧ ((regAt (4 * (32 * q + r))).1 = .buf → bufBase + (regAt (4 * (32 * q + r))).2 = 4 * (32 * q + r)
            ∧ 0x100 ≤ 4 * (32 * q + r) ∧ 4 * (32 * q + r) < 0x180)
        ∧ ((regAt (4 * (32 * q + r))).1 = .hexIn → hexInBase + (regAt (4 * (32 * q + r))).2 = 4 * (32 * q + r)
            ∧ 0x280 ≤ 4 * (32 * q + r) ∧ 4 * (32 * q + r) < 0x300) := by
    decide +kernel
  have := h (a / 128) (by omega) (a / 4 % 32) (by omega)
  rwa [show 4 * (32 * (a / 128) + a / 4 % 32) = a by omega] at this

/-- Everything a write can do to the machine: nothing, a dropped write that sets OVR, an accepted command, or four bytes of
BUF or HEXIN (20_memory.md R66, R67, R70, R71). -/
theorem writeReg_cases (s : State) (addr : BitVec 12) (v : Word) (h4 : addr.toNat % 4 = 0) :
    let a := addr.toNat
    let t := writeReg s (regAt a).1 (regAt a).2 v
    t = s
      ∨ (t = s.overrun ∧ s.busy = true ∧ (a = 0x008 ∨ (0x100 ≤ a ∧ a < 0x180) ∨ (0x280 ≤ a ∧ a < 0x300)))
      ∨ (t = s.accept v ∧ s.busy = false ∧ a = 0x008)
      ∨ (t = s.storeBytes a (toLE 4 v.toNat) ∧ s.busy = false
          ∧ ((0x100 ≤ a ∧ a < 0x180) ∨ (0x280 ≤ a ∧ a < 0x300))) := by
  obtain ⟨hc, hb, hx⟩ := regAt_writable addr.toNat addr.isLt h4
  dsimp only
  cases hr : (regAt addr.toNat).1 with
  | cmd =>
    have ha := hc hr
    cases hbusy : s.busy <;> simp [writeReg, hbusy, ha]
  | buf =>
    obtain ⟨ha, h1, h2⟩ := hb hr
    cases hbusy : s.busy <;> simp [writeReg, State.writeBuffer, hbusy, ha, h1, h2]
  | hexIn =>
    obtain ⟨ha, h1, h2⟩ := hx hr
    cases hbusy : s.busy <;> simp [writeReg, State.writeBuffer, hbusy, ha, h1, h2]
  | _ => exact .inl rfl

/-! ## The host's turn and the step -/

/-- Everything the host's turn can do when it answers a next state. -/
theorem hostTurn_cases {s t : State} (h : hostTurn s = .next t) :
    (s.env.host = [] ∧ t = s)
      ∨ (∃ b rest, s.env.host = .resetPin b :: rest ∧ t = (s.setHost rest).resetInput b)
      ∨ (s.resetHeld = false ∧ ∃ addr size rest, s.env.host = .read addr size :: rest
          ∧ t = busRead (s.setHost rest) addr size)
      ∨ (s.resetHeld = false ∧ ∃ addr size data rest, s.env.host = .write addr size data :: rest
          ∧ t = busWrite (s.setHost rest) addr size data)
      ∨ (s.resetHeld = false ∧ ∃ rest, s.env.host = .wait :: rest
          ∧ t = busRead (if s.busy then s else s.setHost rest) 0x004 4) := by
  unfold hostTurn at h
  split at h
  · next hh => exact .inl ⟨hh, (Host.Outcome.next.inj h).symm⟩
  · next b rest hh => exact .inr (.inl ⟨b, rest, hh, (Host.Outcome.next.inj h).symm⟩)
  · next addr size rest hh =>
    cases hr : s.resetHeld <;> simp only [hr, if_true, Bool.false_eq_true, if_false] at h
    · exact .inr (.inr (.inl ⟨rfl, addr, size, rest, hh, (Host.Outcome.next.inj h).symm⟩))
    · cases h
  · next addr size data rest hh =>
    cases hr : s.resetHeld <;> simp only [hr, if_true, Bool.false_eq_true, if_false] at h
    · exact .inr (.inr (.inr (.inl ⟨rfl, addr, size, data, rest, hh, (Host.Outcome.next.inj h).symm⟩)))
    · cases h
  · next rest hh =>
    cases hr : s.resetHeld <;> simp only [hr, if_true, Bool.false_eq_true, if_false] at h
    · exact .inr (.inr (.inr (.inr ⟨rfl, rest, hh, (Host.Outcome.next.inj h).symm⟩)))
    · cases h

theorem step_due {s : State} (h : engineDue s = true) : step s = engineStep s := by simp [step, h]

theorem step_not_due {s : State} (h : engineDue s = false) : step s = hostTurn s.tick := by simp [step, h]

/-- The engine's step is due exactly when a command is pending, its latency is over and reset is released. -/
theorem engineDue_iff (s : State) :
    engineDue s = true ↔ s.busy = true ∧ s.resetHeld = false ∧ s.env.countdown = 0 := by
  simp [engineDue, and_assoc]

/-! ## Where the buffers lie -/

theorem isBufferAddr_digest {a : Nat} (h1 : digestBase ≤ a) (h2 : a < digestBase + 64) : isBufferAddr a = true := by
  simp only [digestBase] at h1 h2
  simp [isBufferAddr]; omega

theorem isBufferAddr_buf {a : Nat} (h1 : bufBase ≤ a) (h2 : a < bufBase + 128) : isBufferAddr a = true := by
  simp only [bufBase] at h1 h2
  simp [isBufferAddr]; omega

theorem isBufferAddr_hexOut {a : Nat} (h1 : hexOutBase ≤ a) (h2 : a < hexOutBase + 128) : isBufferAddr a = true := by
  simp only [hexOutBase] at h1 h2
  simp [isBufferAddr]; omega

theorem isBufferAddr_hexIn {a : Nat} (h1 : hexInBase ≤ a) (h2 : a < hexInBase + 128) : isBufferAddr a = true := by
  simp only [hexInBase] at h1 h2
  simp [isBufferAddr]; omega

/-- The bytes of a text of `2n` characters are `n`. -/
theorem unhexText_length : ∀ (n : Nat) (l : List Byte), l.length = 2 * n → (unhexText l).length = n
  | 0, [], _ => rfl
  | n + 1, hi :: lo :: rest, h => by
    simp only [unhexText, List.length_cons]
    rw [unhexText_length n rest (by simp only [List.length_cons] at h; omega)]
  | n + 1, [_], h => by simp only [List.length_cons, List.length_nil] at h; omega

end Sys2Proof.Machine
end

