-- ==== Sys2Proof/Laws/Bus.lean ====
section
/-!
SUPPORT. The laws of the bus: the register at each offset of the window, what a register answers, and the host's turn as
one read or one write.
-/
namespace Sys2Proof.Machine

/-! ## The register map (20_memory.md R63) -/

/-- No two rows of the map overlap. -/
theorem busMap_disjoint :
    ∀ x ∈ busMap, ∀ y ∈ busMap, x.base < y.base + y.size → y.base < x.base + x.size → x = y := by decide

/-- An offset in a row of the map is that row's register. -/
theorem regAt_of_row (base size : Nat) (reg : BusReg) {a : Nat} (hr : ⟨base, size, reg⟩ ∈ busMap) (h1 : base ≤ a)
    (h2 : a < base + size) : regAt a = (reg, a - base) := by
  unfold regAt
  cases hf : busMap.find? (fun r => decide (r.base ≤ a) && decide (a < r.base + r.size)) with
  | none =>
    have := List.find?_eq_none.1 hf _ hr
    simp [h1, h2] at this
  | some x =>
    have hx := List.find?_some hf
    simp only [Bool.and_eq_true, decide_eq_true_eq] at hx
    rw [← busMap_disjoint _ hr x (List.mem_of_find?_eq_some hf) (by simp only; omega) (by simp only; omega)]

/-- An offset in no row of the map is reserved. -/
theorem regAt_of_no_row {a : Nat} (h : ∀ r ∈ busMap, a < r.base ∨ r.base + r.size ≤ a) : regAt a = (.reserved, 0) := by
  unfold regAt
  rw [List.find?_eq_none.2]
  intro r hr
  have := h r hr
  simp only [Bool.and_eq_true, decide_eq_true_eq]
  omega

/-- Everything `regAt` can answer: a row of the map that holds the offset, or reserved. -/
theorem regAt_cases (a : Nat) :
    (∃ r ∈ busMap, r.base ≤ a ∧ a < r.base + r.size ∧ regAt a = (r.reg, a - r.base)) ∨ regAt a = (.reserved, 0) := by
  unfold regAt
  cases hf : busMap.find? (fun r => decide (r.base ≤ a) && decide (a < r.base + r.size)) with
  | none => exact .inr rfl
  | some r =>
    have hr := List.find?_some hf
    simp only [Bool.and_eq_true, decide_eq_true_eq] at hr
    exact .inl ⟨r, List.mem_of_find?_eq_some hf, hr.1, hr.2, rfl⟩

/-- The registers whose busy-time reads are unspecified lie at the offsets of R72 (20_memory.md). -/
theorem freeWhileBusy_offset {a : Nat} (h4 : a % 4 = 0) (h : freeWhileBusy (regAt a).1 = true) :
    EngineWritten a ∨ HostBuffer a := by
  rcases regAt_cases a with ⟨r, hr, h1, h2, he⟩ | he <;> rw [he] at h
  · simp only [busMap, List.mem_cons, List.not_mem_nil, or_false] at hr
    unfold EngineWritten HostBuffer
    rcases hr with rfl | rfl | rfl | rfl | rfl | rfl | rfl | rfl | rfl | rfl | rfl | rfl | rfl | rfl <;>
      first | (simp only at h1 h2; omega) | (exact Bool.noConfusion h)
  · cases h

theorem regAt_reserved {a : Nat} (h : Reserved a) (h4 : a % 4 = 0) : regAt a = (.reserved, 0) := by
  refine regAt_of_no_row ?_
  simp only [busMap, List.forall_mem_cons, List.not_mem_nil, false_implies, implies_true, and_true]
  unfold Reserved at h
  omega

theorem regAt_engineWritten {a : Nat} (h : EngineWritten a) (h4 : a % 4 = 0) :
    regAt a = (.len, a - 0x010) ∨ regAt a = (.h, a - 0x040) ∨ regAt a = (.digest, a - 0x080)
      ∨ regAt a = (.hexOut, a - 0x200) := by
  unfold EngineWritten at h
  by_cases h1 : a ≤ 0x01C
  · exact .inl (regAt_of_row 0x010 0x010 .len (by decide) (by omega) (by omega))
  · by_cases h2 : a < 0x080
    · exact .inr (.inl (regAt_of_row 0x040 0x040 .h (by decide) (by omega) (by omega)))
    · by_cases h3 : a < 0x0C0
      · exact .inr (.inr (.inl (regAt_of_row 0x080 0x040 .digest (by decide) (by omega) (by omega))))
      · exact .inr (.inr (.inr (regAt_of_row 0x200 0x080 .hexOut (by decide) (by omega) (by omega))))

theorem regAt_hostBuffer {a : Nat} (h : HostBuffer a) (h4 : a % 4 = 0) :
    (regAt a = (.buf, a - 0x100) ∧ 0x100 ≤ a) ∨ (regAt a = (.hexIn, a - 0x280) ∧ 0x280 ≤ a) := by
  unfold HostBuffer at h
  by_cases h1 : a ≤ 0x17C
  · exact .inl ⟨regAt_of_row 0x100 0x080 .buf (by decide) (by omega) (by omega), by omega⟩
  · exact .inr ⟨regAt_of_row 0x280 0x080 .hexIn (by decide) (by omega) (by omega), by omega⟩

theorem regAt_rom {a : Nat} (h : RomOffset a) (h4 : a % 4 = 0) :
    (regAt a).1 ∈ [BusReg.romMd5T, .romSha256K, .romSha512K, .romSha1K, .romMd5S] := by
  unfold RomOffset at h
  by_cases h1 : a < 0x500
  · rw [regAt_of_row 0x400 0x100 .romMd5T (by decide) (by omega) (by omega)]; simp
  · by_cases h2 : a < 0x600
    · rw [regAt_of_row 0x500 0x100 .romSha256K (by decide) (by omega) (by omega)]; simp
    · by_cases h3 : a < 0x880
      · rw [regAt_of_row 0x600 0x280 .romSha512K (by decide) (by omega) (by omega)]; simp
      · by_cases h5 : a < 0x890
        · rw [regAt_of_row 0x880 0x010 .romSha1K (by decide) (by omega) (by omega)]; simp
        · rw [regAt_of_row 0x900 0x100 .romMd5S (by decide) (by omega) (by omega)]; simp

/-! ## What a register answers -/

/-- The little-endian word of four bytes (20_memory.md R64). -/
theorem leWord_four (a b c d : Byte) : leWord 32 [a, b, c, d] = d ++ c ++ b ++ a := by
  apply BitVec.eq_of_toNat_eq
  have := a.isLt
  have := b.isLt
  have := c.isLt
  have := d.isLt
  simp only [leWord, leNat, BitVec.toNat_append, BitVec.toNat_ofNat]
  rw [← Nat.shiftLeft_add_eq_or_of_lt (by omega), ← Nat.shiftLeft_add_eq_or_of_lt (by omega),
    ← Nat.shiftLeft_add_eq_or_of_lt (by omega)]
  simp only [Nat.shiftLeft_eq]
  omega

theorem bufferWord_eq (s : State) (a : Nat) : bufferWord s a = laneWord s a := leWord_four _ _ _ _

/-- Byte k of a word's four bytes is bits 8k+7 to 8k (20_memory.md R64). -/
theorem toLE_four_getElem (v : Word) (k : Nat) (h : k < (toLE 4 v.toNat).length) :
    (toLE 4 v.toNat)[k] = v.extractLsb' (8 * k) 8 := by
  have hk : k = 0 ∨ k = 1 ∨ k = 2 ∨ k = 3 := by rw [toLE_length] at h; omega
  have := v.isLt
  rcases hk with rfl | rfl | rfl | rfl <;> apply BitVec.eq_of_toNat_eq <;>
    simp only [toLE, List.getElem_cons_zero, List.getElem_cons_succ, BitVec.extractLsb'_toNat, BitVec.toNat_ofNat,
      Nat.shiftRight_eq_div_pow] <;> omega

/-- The number of the STATUS word (10_state.md R27). -/
theorem statusWord_toNat (s : State) :
    (statusWord s).toNat = s.dlen.toNat * 2 ^ 16 + (phaseCode s.phase).toNat * 2 ^ 12 + (algCode s.alg).toNat * 2 ^ 8
      + s.errCode.toNat * 2 ^ 4 + s.ovr.toNat * 8 + s.err.toNat * 4 + s.done.toNat * 2 + s.busy.toNat := by
  have h1 := s.dlen.isLt
  have h2 := (phaseCode s.phase).isLt
  have h3 := (algCode s.alg).isLt
  have h4 := s.errCode.isLt
  have h5 := (BitVec.ofBool s.ovr).isLt
  have h6 := (BitVec.ofBool s.err).isLt
  have h7 := (BitVec.ofBool s.done).isLt
  have h8 := (BitVec.ofBool s.busy).isLt
  simp only [statusWord, BitVec.toNat_append]
  repeat rw [← Nat.shiftLeft_add_eq_or_of_lt (by first | exact h1 | exact h2 | exact h3 | exact h4 | exact h5 | exact h6 | exact h7 | exact h8 | decide)]
  simp only [BitVec.toNat_ofBool, Nat.shiftLeft_eq, BitVec.toNat_ofNat]
  omega

/-- A register answers the same in two states with the same core. -/
theorem regValue_congr {s t : State} (h : SameCore s t) (r : BusReg) (off : Nat) : regValue t r off = regValue s r off := by
  have hb : ∀ a, bufferWord t a = bufferWord s a := fun a => by
    unfold bufferWord; rw [State.bytesAt_congr (by rw [h.1]) h.2]
  cases r <;> simp only [regValue, hb]
  · unfold statusWord; rw [h.1]
  · rw [h.1]
  · rw [h.1]

/-! ## The host's turn -/

theorem HostActs.notDue {s : State} {op : HostOp} {rest : List HostOp} (h : HostActs s op rest) :
    engineDue s = false := by
  rw [Bool.eq_false_iff, Ne, engineDue_iff]
  exact fun ⟨hb, _, hc⟩ => h.turn hb hc

theorem step_read {s : State} {addr : BitVec 12} {size : Nat} {rest : List HostOp}
    (h : HostActs s (.read addr size) rest) : step s = .next (busRead (s.tick.setHost rest) addr size) := by
  rw [step_not_due h.notDue]
  simp [hostTurn, h.next, h.released]

theorem step_write {s : State} {addr : BitVec 12} {size : Nat} {v : Word} {rest : List HostOp}
    (h : HostActs s (.write addr size v) rest) : step s = .next (busWrite (s.tick.setHost rest) addr size v) := by
  rw [step_not_due h.notDue]
  simp [hostTurn, h.next, h.released]

theorem turn_sameCore (s : State) (rest : List HostOp) : SameCore s (s.tick.setHost rest) :=
  (tick_sameCore s).trans (setHost_sameCore _ _)

@[simp] theorem busRead_env_host (s : State) (addr : BitVec 12) (size : Nat) :
    (busRead s addr size).env.host = s.env.host := by
  unfold busRead; split <;> simp

@[simp] theorem writeReg_env_host (s : State) (r : BusReg) (off : Nat) (v : Word) :
    (writeReg s r off v).env.host = s.env.host := by
  cases r <;> simp only [writeReg, State.writeBuffer] <;> (try split) <;> simp

@[simp] theorem writeReg_env_answers (s : State) (r : BusReg) (off : Nat) (v : Word) :
    (writeReg s r off v).env.answers = s.env.answers := by
  cases r <;> simp only [writeReg, State.writeBuffer] <;> (try split) <;> simp

@[simp] theorem busWrite_env_host (s : State) (addr : BitVec 12) (size : Nat) (v : Word) :
    (busWrite s addr size v).env.host = s.env.host := by
  unfold busWrite; split <;> simp

/-- A write to BUF or HEXIN is a buffer write at its offset. -/
theorem writeReg_hostBuffer (s : State) {a : Nat} (v : Word) (h : HostBuffer a) (h4 : a % 4 = 0) :
    writeReg s (regAt a).1 (regAt a).2 v = s.writeBuffer a v := by
  rcases regAt_hostBuffer h h4 with ⟨hr, hle⟩ | ⟨hr, hle⟩ <;> rw [hr] <;> simp only [writeReg, bufBase, hexInBase] <;>
    rw [Nat.add_sub_cancel' hle]

end Sys2Proof.Machine
end

