-- ==== Sys2Proof/Laws/Decode.lean ====
section
/-!
SUPPORT. The laws of decoding: the command word's fields as numbers, and everything `decode` can answer.
-/
namespace Sys2Proof

theorem opField_toNat (v : Word) : (opField v).toNat = v.toNat % 16 := by
  simp [opField, BitVec.extractLsb'_toNat]

theorem algField_toNat (v : Word) : (algField v).toNat = v.toNat / 16 % 16 := by
  simp [algField, BitVec.extractLsb'_toNat, Nat.shiftRight_eq_div_pow]

theorem nField_toNat (v : Word) : (nField v).toNat = v.toNat / 256 % 256 := by
  simp [nField, BitVec.extractLsb'_toNat, Nat.shiftRight_eq_div_pow]

theorem rsvField_toNat (v : Word) : (rsvField v).toNat = v.toNat / 65536 := by
  have := v.isLt
  simp [rsvField, BitVec.extractLsb'_toNat, Nat.shiftRight_eq_div_pow]
  omega

/-- The number of a command word (30_encoding.md R91). -/
theorem commandWord_toNat (n : BitVec 8) (alg op : BitVec 4) :
    (commandWord n alg op).toNat = n.toNat * 256 + alg.toNat * 16 + op.toNat := by
  have := n.isLt
  have := alg.isLt
  have := op.isLt
  simp only [commandWord, BitVec.toNat_append]
  rw [← Nat.shiftLeft_add_eq_or_of_lt (by omega), ← Nat.shiftLeft_add_eq_or_of_lt (by omega),
    ← Nat.shiftLeft_add_eq_or_of_lt (by omega)]
  simp [Nat.shiftLeft_eq]
  omega

/-- The fields of a command word are the ones it was made from. -/
theorem fields_commandWord (n : BitVec 8) (alg op : BitVec 4) :
    opField (commandWord n alg op) = op ∧ algField (commandWord n alg op) = alg
      ∧ nField (commandWord n alg op) = n ∧ rsvField (commandWord n alg op) = 0 := by
  have := n.isLt
  have := alg.isLt
  have := op.isLt
  refine ⟨?_, ?_, ?_, ?_⟩ <;> apply BitVec.eq_of_toNat_eq
  · rw [opField_toNat, commandWord_toNat]; omega
  · rw [algField_toNat, commandWord_toNat]; omega
  · rw [nField_toNat, commandWord_toNat]; omega
  · rw [rsvField_toNat, commandWord_toNat]; simp only [BitVec.ofNat_eq_ofNat, BitVec.toNat_ofNat]; omega

theorem algField_beq_zero (v : Word) : (algField v == 0) = (v.toNat / 16 % 16 == 0) := by
  rw [Bool.eq_iff_iff, beq_iff_eq, beq_iff_eq, BitVec.toNat_eq, algField_toNat]
  rfl

theorem nField_beq_zero (v : Word) : (nField v == 0) = (v.toNat / 256 % 256 == 0) := by
  rw [Bool.eq_iff_iff, beq_iff_eq, beq_iff_eq, BitVec.toNat_eq, nField_toNat]
  rfl

/-- Everything `decode` can answer, by the word's number (30_encoding.md R96). -/
theorem decode_cases (v : Word) :
    (8 ≤ v.toNat % 16 ∧ decode v = .reject .illegalCmd)
      ∨ (v.toNat % 16 < 8 ∧ 65536 ≤ v.toNat ∧ decode v = .reject .reservedField)
      ∨ (v.toNat < 65536 ∧
        ((v.toNat % 16 = 0
            ∧ decode v = checkFields (v.toNat / 16 % 16 == 0 && v.toNat / 256 % 256 == 0) .nop)
          ∨ (v.toNat % 16 = 1 ∧ decode v = checkFields (v.toNat / 256 % 256 == 0) (.init (algField v)))
          ∨ (v.toNat % 16 = 2 ∧ decode v = checkFields (v.toNat / 256 % 256 == 0) (.hinit (algField v)))
          ∨ (v.toNat % 16 = 3
            ∧ decode v = checkFields (v.toNat / 16 % 16 == 0 && v.toNat / 256 % 256 == 0) .update)
          ∨ (v.toNat % 16 = 4 ∧ decode v = checkFields (v.toNat / 16 % 16 == 0) (.final (nField v)))
          ∨ (v.toNat % 16 = 5
            ∧ decode v = checkFields (v.toNat / 16 % 16 == 0 && v.toNat / 256 % 256 == 0) .hex)
          ∨ (v.toNat % 16 = 6 ∧ decode v = checkFields (v.toNat / 16 % 16 == 0) (.unhex (nField v)))
          ∨ (v.toNat % 16 = 7
            ∧ decode v = checkFields (v.toNat / 16 % 16 == 0 && v.toNat / 256 % 256 == 0) .clear))) := by
  unfold decode
  simp only [algField_beq_zero, nField_beq_zero, opField_toNat]
  by_cases h8 : 8 ≤ v.toNat % 16
  · exact .inl ⟨h8, by rw [if_pos h8]⟩
  · rw [if_neg h8]
    by_cases hr : 65536 ≤ v.toNat
    · have hne : rsvField v ≠ 0 := by
        intro h
        have := congrArg BitVec.toNat h
        rw [rsvField_toNat] at this
        simp only [BitVec.ofNat_eq_ofNat, BitVec.toNat_ofNat] at this
        omega
      exact .inr (.inl ⟨by omega, hr, by rw [if_pos hne]⟩)
    · have heq : rsvField v = 0 := by
        apply BitVec.eq_of_toNat_eq
        rw [rsvField_toNat]
        simp only [BitVec.ofNat_eq_ofNat, BitVec.toNat_ofNat]
        omega
      rw [if_neg (by simp [heq])]
      refine .inr (.inr ⟨by omega, ?_⟩)
      have h : v.toNat % 16 = 0 ∨ v.toNat % 16 = 1 ∨ v.toNat % 16 = 2 ∨ v.toNat % 16 = 3 ∨ v.toNat % 16 = 4
          ∨ v.toNat % 16 = 5 ∨ v.toNat % 16 = 6 ∨ v.toNat % 16 = 7 := by omega
      rcases h with h | h | h | h | h | h | h | h <;> simp [h]

/-- A check of fields that answers a command answers that one, and the fields pass. -/
theorem checkFields_instr {ok : Bool} {i j : Instr} (h : checkFields ok i = .instr j) : ok = true ∧ i = j := by
  cases ok
  · cases h
  · exact ⟨rfl, Decoded.instr.inj h⟩

end Sys2Proof
end

