-- ==== Sys2Proof/Laws/PerInstr.lean ====
section
/-!
SUPPORT. The families of statements made per command. EncodedFields: the word of a command has RSV zero and the opcode of
its row (30_encoding.md R91, R92).
-/
namespace Sys2Proof.Laws.EncodedFields

/-- OP of a command (30_encoding.md R92). -/
def opcode : Instr → BitVec 4
  | .nop => 0
  | .init _ => 1
  | .hinit _ => 2
  | .update => 3
  | .final _ => 4
  | .hex => 5
  | .unhex _ => 6
  | .clear => 7

/-- The word has RSV zero and the command's OP. -/
def Statement (i : Instr) : Prop := rsvField (encode i) = 0 ∧ opField (encode i) = opcode i

theorem nop : Statement .nop := by unfold Statement; decide

theorem init (alg : BitVec 4) : Statement (.init alg) := by unfold Statement; revert alg; decide

theorem hinit (alg : BitVec 4) : Statement (.hinit alg) := by unfold Statement; revert alg; decide

theorem update : Statement .update := by unfold Statement; decide

theorem final (n : BitVec 8) : Statement (.final n) := by unfold Statement; revert n; decide +kernel

theorem hex : Statement .hex := by unfold Statement; decide

theorem unhex (n : BitVec 8) : Statement (.unhex n) := by unfold Statement; revert n; decide +kernel

theorem clear : Statement .clear := by unfold Statement; decide

end Sys2Proof.Laws.EncodedFields
end

