-- ==== Sys2Proof/Tests/Slice0.lean ====
section
/-!
SUPPORT. The model's own tests: expected results are the spec's worked examples, and each statement with hypotheses has a
witness that meets them.
-/
namespace Sys2Proof.Tests
open Sys2Proof Sys2Proof.Machine

/-! ## Helpers -/

/-- A state with bytes written in a buffer. -/
def withBytes (s : State) (base : Nat) (b : List Byte) : State := s.storeBytes base b

/-- A session of an algorithm in a phase, from reset. -/
def session (a : Alg) (p : Phase) : State := State.reset.startSession a p

/-- The state after a command that answers one. -/
def after (i : Instr) (s : State) : State :=
  match exec i s with
  | .next t => t
  | _ => s

/-- The state after a step that answers one. -/
def stepped (s : State) : State :=
  match step s with
  | .next t => t
  | _ => s

/-- Reset, with operations of the host to come. -/
def hostState (ops : List HostOp) : State := { State.reset with env := { Env.start with host := ops } }

/-- A running command with turns left, and operations of the host to come. -/
def busyState (w : Word) (turns : Nat) (ops : List HostOp) : State :=
  { State.reset with pend := w, busy := true, env := { Env.start with host := ops, countdown := turns } }

/-- The operands of the examples: "abc", "Jefe" and its message. -/
def abc : List Byte := [0x61, 0x62, 0x63]

def jefe : List Byte := [0x4A, 0x65, 0x66, 0x65]

def jefeMessage : List Byte :=
  [0x77, 0x68, 0x61, 0x74, 0x20, 0x64, 0x6F, 0x20, 0x79, 0x61, 0x20, 0x77, 0x61, 0x6E, 0x74, 0x20, 0x66, 0x6F, 0x72,
   0x20, 0x6E, 0x6F, 0x74, 0x68, 0x69, 0x6E, 0x67, 0x3F]

/-! ## Well-formedness: the checks refuse the first operand out of range -/

theorem test_wellFormed_init : Instr.wellFormed (.init 4) = true ∧ Instr.wellFormed (.init 5) = false := by decide

theorem test_wellFormed_hinit : Instr.wellFormed (.hinit 4) = true ∧ Instr.wellFormed (.hinit 5) = false := by decide

theorem test_wellFormed_final : Instr.wellFormed (.final 127) = true ∧ Instr.wellFormed (.final 128) = false := by decide

theorem test_wellFormed_unhex : Instr.wellFormed (.unhex 64) = true ∧ Instr.wellFormed (.unhex 65) = false := by decide

/-! ## Decoding: words written bit by bit from 30_encoding.md R91 and R92 (RSV, N, ALG, OP) -/

theorem test_decode_nop : decode 0b0000000000000000_00000000_0000_0000 = .instr .nop := by decide

theorem test_decode_init : decode 0b0000000000000000_00000000_0010_0001 = .instr (.init 2) := by decide

theorem test_decode_hinit : decode 0b0000000000000000_00000000_0100_0010 = .instr (.hinit 4) := by decide

theorem test_decode_update : decode 0b0000000000000000_00000000_0000_0011 = .instr .update := by decide

theorem test_decode_final : decode 0b0000000000000000_10000001_0000_0100 = .instr (.final 129) := by decide

theorem test_decode_hex : decode 0b0000000000000000_00000000_0000_0101 = .instr .hex := by decide

theorem test_decode_unhex : decode 0b0000000000000000_00100000_0000_0110 = .instr (.unhex 32) := by decide

theorem test_decode_clear : decode 0b0000000000000000_00000000_0000_0111 = .instr .clear := by decide

/-- R343's examples, and one word for each row of R95. -/
theorem test_decode_rejects :
    decode 0x00010008 = .reject .illegalCmd ∧ decode 0x000001F1 = .reject .reservedField
      ∧ decode 0x00010001 = .reject .reservedField ∧ decode 0x00000010 = .reject .reservedField
      ∧ decode 0x00000013 = .reject .reservedField ∧ decode 0x00000105 = .reject .reservedField
      ∧ decode 0x00000107 = .reject .reservedField ∧ decode 0x00000102 = .reject .reservedField
      ∧ decode 0x00000014 = .reject .reservedField ∧ decode 0x00000016 = .reject .reservedField := by decide

/-- R93: code 15 is an operand, whose meaning raises the error. -/
theorem test_decodeTableWord : decodeTableWord 32 0xF1 = some (.init 15) ∧ decodeTableWord 32 0x8 = none := by decide

/-! ## The engines: the worked examples of the spec on "abc" and its padded block -/

/-- R129. -/
theorem test_pad :
    pad .md5 24 abc = abc ++ [0x80] ++ zeros 52 ++ [0x18, 0, 0, 0, 0, 0, 0, 0]
      ∧ pad .sha256 24 abc = abc ++ [0x80] ++ zeros 52 ++ [0, 0, 0, 0, 0, 0, 0, 0x18] := by decide +kernel

/-- R123: n = 55, 56, 63, 111 and 112. -/
theorem test_padZeros :
    [padZeros .sha1 55, padZeros .sha1 56, padZeros .sha1 63, padZeros .sha512 111, padZeros .sha512 112]
      = [0, 63, 56, 0, 127] := by decide

/-- R141 and R142. -/
theorem test_schedule_md5_sha1 :
    (expandMd5 (pad .md5 24 abc)).getD 19 0 = 0x80636261 ∧ (expandMd5 (pad .md5 24 abc)).getD 14 0 = 0x00000018
      ∧ ((expandSha1 (pad .sha1 24 abc)).drop 16).take 4 = [0xC2C4C700, 0, 0x00000030, 0x85898E01]
      ∧ (expandSha1 (pad .sha1 24 abc)).getD 79 0 = 0x822E0879 := by decide +kernel

/-- R143 and R144. -/
theorem test_schedule_sha2 :
    (expandSha256 (pad .sha256 24 abc)).getD 18 0 = 0x7DA86405
      ∧ (expandSha256 (pad .sha256 24 abc)).getD 63 0 = 0x12B1EDEB
      ∧ (expandSha512 (pad .sha512 24 abc)).getD 18 0 = 0x0A9699A24C700003
      ∧ (expandSha512 (pad .sha512 24 abc)).getD 79 0 = 0x92AEEED1A7BCF7D2 := by decide +kernel

/-- R164: after rounds 0, 1 and 63. -/
theorem test_md5_rounds :
    md5Rounds 1 (iv .md5) (pad .md5 24 abc) = ⟨0x10325476, 0xD6D117B4, 0xEFCDAB89, 0x98BADCFE⟩
      ∧ md5Rounds 2 (iv .md5) (pad .md5 24 abc) = ⟨0x98BADCFE, 0x344A8432, 0xD6D117B4, 0xEFCDAB89⟩
      ∧ md5Rounds 64 (iv .md5) (pad .md5 24 abc) = ⟨0x310ADE8F, 0xC08226B3, 0xE484B9D8, 0x624D8CB2⟩ := by
  decide +kernel

/-- R184: after t = 0, 1 and 79. -/
theorem test_sha1_rounds :
    sha1Rounds 1 (iv .sha1) (pad .sha1 24 abc) = ⟨0x0116FC33, 0x67452301, 0x7BF36AE2, 0x98BADCFE, 0x10325476⟩
      ∧ sha1Rounds 2 (iv .sha1) (pad .sha1 24 abc) = ⟨0x8990536D, 0x0116FC33, 0x59D148C0, 0x7BF36AE2, 0x98BADCFE⟩
      ∧ sha1Rounds 80 (iv .sha1) (pad .sha1 24 abc) =
          ⟨0x42541B35, 0x5738D5E1, 0x21834873, 0x681E6DF6, 0xD8FDF6AD⟩ := by
  decide +kernel

/-- R204: after t = 0 and 63. -/
theorem test_sha256_rounds :
    sha256Rounds 1 (iv .sha256) (pad .sha256 24 abc) =
        ⟨0x5D6AEBCD, 0x6A09E667, 0xBB67AE85, 0x3C6EF372, 0xFA2A4622, 0x510E527F, 0x9B05688C, 0x1F83D9AB⟩
      ∧ sha256Rounds 64 (iv .sha256) (pad .sha256 24 abc) =
        ⟨0x506E3058, 0xD39A2165, 0x04D24D6C, 0xB85E2CE9, 0x5EF50F24, 0xFB121210, 0x948D25B6, 0x961F4894⟩ := by
  decide +kernel

/-- R224: a and e after t = 0 and 79. -/
theorem test_sha512_rounds :
    (sha512Rounds 1 (iv .sha512) (pad .sha512 24 abc)).a = 0xF6AFCEB8BCFCDDF5
      ∧ (sha512Rounds 80 (iv .sha512) (pad .sha512 24 abc)).a = 0x73A54F399FA4B1B2
      ∧ (sha512Rounds 80 (iv .sha512) (pad .sha512 24 abc)).e = 0xD08446AA79693ED7
      ∧ (sha512Rounds 1 (iv .sha384) (pad .sha384 24 abc)).a = 0x470994AD30873F88
      ∧ (sha512Rounds 1 (iv .sha384) (pad .sha384 24 abc)).e = 0xBD03F724BE6075F9 := by
  decide +kernel

/-- R164 and R184. -/
theorem test_digest_md5_sha1 :
    digest .md5 abc =
      [0x90, 0x01, 0x50, 0x98, 0x3C, 0xD2, 0x4F, 0xB0, 0xD6, 0x96, 0x3F, 0x7D, 0x28, 0xE1, 0x7F, 0x72]
      ∧ digest .sha1 abc =
      [0xA9, 0x99, 0x3E, 0x36, 0x47, 0x06, 0x81, 0x6A, 0xBA, 0x3E, 0x25, 0x71, 0x78, 0x50, 0xC2, 0x6C, 0x9C, 0xD0,
       0xD8, 0x9D] := by
  decide +kernel

/-- R224. -/
theorem test_digest_sha384 :
    digest .sha384 abc =
      [0xCB, 0x00, 0x75, 0x3F, 0x45, 0xA3, 0x5E, 0x8B, 0xB5, 0xA0, 0x3D, 0x69, 0x9A, 0xC6, 0x50, 0x07, 0x27, 0x2C,
       0x32, 0xAB, 0x0E, 0xDE, 0xD1, 0x63, 0x1A, 0x8B, 0x60, 0x5A, 0x43, 0xFF, 0x5B, 0xED, 0x80, 0x86, 0x07, 0x2B,
       0xA1, 0xE7, 0xCC, 0x23, 0x58, 0xBA, 0xEC, 0xA1, 0x34, 0xC8, 0x25, 0xA7] := by
  decide +kernel

/-- R224. -/
theorem test_digest_sha512 :
    digest .sha512 abc =
      [0xDD, 0xAF, 0x35, 0xA1, 0x93, 0x61, 0x7A, 0xBA, 0xCC, 0x41, 0x73, 0x49, 0xAE, 0x20, 0x41, 0x31, 0x12, 0xE6,
       0xFA, 0x4E, 0x89, 0xA9, 0x7E, 0xA2, 0x0A, 0x9E, 0xEE, 0xE6, 0x4B, 0x55, 0xD3, 0x9A, 0x21, 0x92, 0x99, 0x2A,
       0x27, 0x4F, 0xC1, 0xA8, 0x36, 0xBA, 0x3C, 0x23, 0xA3, 0xFE, 0xEB, 0xBD, 0x45, 0x4D, 0x44, 0x23, 0x64, 0x3C,
       0xE8, 0x0E, 0x2A, 0x9A, 0xC9, 0x4F, 0xA5, 0x4C, 0xA4, 0x9F] := by
  decide +kernel

/-- R120. -/
theorem test_add_wraps : (0xFFFFFFFF : Word) + 2 = 1 ∧ (0xFFFFFFFFFFFFFFFF : DWord) + 1 = 0 := by decide

/-! ## Commands: one step each, on the spec's examples -/

/-- R261: STATUS after NOP from reset. -/
theorem test_nop_status : statusWord (stepped (State.reset.withFetchWord 32 0x00)) = 0x00000002 := by decide

/-- R262: INIT sha256. -/
theorem test_init : statusWord (after (.init 2) State.reset) = 0x00001202 ∧ (after (.init 2) State.reset).h.h0 = 0x6A09E667
    ∧ (after (.init 2) State.reset).len = 0 := by decide

/-- R93: INIT 5. -/
theorem test_init_unknown : statusWord (after (.init 5) State.reset) = 0x00000036 := by decide

/-- R310: HINIT sha256. -/
theorem test_hinit : statusWord (after (.hinit 2) State.reset) = 0x00002202 := by decide

/-- R264: UPDATE in IDLE. -/
theorem test_update_idle : statusWord (after .update State.reset) = 0x00000046 := by decide

/-- R311: a key block of 64 bytes 0xAA. -/
theorem test_update_key :
    let t := after .update (withBytes (session .sha256 .hkey) 0x100 (List.replicate 64 0xAA))
    t.len = 512 ∧ t.k0.toList = List.replicate 64 0xAA ++ zeros 64 ∧ t.phase = .hkey := by decide +kernel

/-- R204: FINAL 3 of "abc". -/
theorem test_final_digest :
    let t := after (.final 3) (withBytes (session .sha256 .hash) 0x100 abc)
    t.digestBytes 32 =
      [0xBA, 0x78, 0x16, 0xBF, 0x8F, 0x01, 0xCF, 0xEA, 0x41, 0x41, 0x40, 0xDE, 0x5D, 0xAE, 0x22, 0x23, 0xB0, 0x03,
       0x61, 0xA3, 0x96, 0x17, 0x7A, 0x9C, 0xB4, 0x10, 0xFF, 0x61, 0xF2, 0x00, 0x15, 0xAD]
      ∧ t.len = 24 ∧ statusWord t = 0x00200202 := by decide +kernel

/-- R314: FINAL 28 of the message under the key "Jefe". -/
theorem test_final_hmac :
    let s := { session .sha256 .hmsg with
      k0 := keyOfBytes jefe, len := 512, h := compress .sha256 (iv .sha256) (xorRep 0x36 (fit 64 jefe)) }
    let t := after (.final 28) (withBytes s 0x100 jefeMessage)
    t.digestBytes 32 =
      [0x5B, 0xDC, 0xC1, 0x46, 0xBF, 0x60, 0x75, 0x4E, 0x6A, 0x04, 0x24, 0x26, 0x08, 0x95, 0x75, 0xC7, 0x5A, 0x00,
       0x3F, 0x08, 0x9D, 0x27, 0x39, 0x83, 0x9D, 0xEC, 0x58, 0xB9, 0x64, 0xEC, 0x38, 0x43]
      ∧ statusWord t = 0x00200202 := by decide +kernel

/-- R290: the digest of the empty message as text. -/
theorem test_hex :
    let s := { withBytes State.reset 0x080
      [0xD4, 0x1D, 0x8C, 0xD9, 0x8F, 0x00, 0xB2, 0x04, 0xE9, 0x80, 0x09, 0x98, 0xEC, 0xF8, 0x42, 0x7E] with dlen := 16 }
    (after .hex s).bytesAt 0x200 32 =
      [0x44, 0x34, 0x31, 0x44, 0x38, 0x43, 0x44, 0x39, 0x38, 0x46, 0x30, 0x30, 0x42, 0x32, 0x30, 0x34, 0x45, 0x39,
       0x38, 0x30, 0x30, 0x39, 0x39, 0x38, 0x45, 0x43, 0x46, 0x38, 0x34, 0x32, 0x37, 0x45]
      ∧ bufferWord (after .hex s) 0x200 = 0x44313444 := by decide +kernel

/-- R292: "0aFf". -/
theorem test_unhex :
    let t := after (.unhex 2) (withBytes State.reset 0x280 [0x30, 0x61, 0x46, 0x66])
    t.byteAt 0x100 = 0x0A ∧ t.byteAt 0x101 = 0xFF ∧ t.err = false := by decide +kernel

/-- R294: "0G". -/
theorem test_unhex_format : statusWord (after (.unhex 1) (withBytes State.reset 0x280 [0x30, 0x47])) = 0x00000066 := by
  decide +kernel

/-- R267. -/
theorem test_clear :
    let t := after .clear { session .sha512 .hash with ovr := true, dlen := 64 }
    statusWord t = 0x00000002 ∧ bufferWord t 0x17C = 0 := by decide +kernel

/-- R266: FINAL 64 of a SHA-1 session; SEQUENCE comes before LENGTH. -/
theorem test_final_errors :
    statusWord (after (.final 64) (session .sha1 .hash)) = 0x00000156
      ∧ (after (.final 200) State.reset).errCode = 4 := by decide

/-! ## The bus -/

/-- R32 and R62. -/
theorem test_bus_read :
    (stepped (hostState [.read 0x000 4])).env.answers = [.readOk 0x4A53071F]
      ∧ (stepped (hostState [.read 0x002 4])).env.answers = [.busErr]
      ∧ (stepped (hostState [.read 0x000 2])).env.answers = [.busErr] := by decide

/-- R64: the lowest lane lies at the lowest offset. -/
theorem test_bus_write :
    let t := stepped (hostState [.write 0x100 4 0x44434241])
    t.byteAt 0x100 = 0x41 ∧ t.byteAt 0x103 = 0x44 ∧ t.env.answers = [.writeOk] := by decide

/-- R245, R241, R246 and R243, read through the bus. -/
theorem test_bus_rom :
    (stepped (hostState [.read 0x604 4])).env.answers = [.readOk 0x428A2F98]
      ∧ (stepped (hostState [.read 0x600 4])).env.answers = [.readOk 0xD728AE22]
      ∧ (stepped (hostState [.read 0x88C 4])).env.answers = [.readOk 0xCA62C1D6]
      ∧ (stepped (hostState [.read 0x9FC 4])).env.answers = [.readOk 21] := by decide

/-- R244, R246: p_0 = 2, p_1 = 3, p_63 = 311, p_79 = 409. -/
theorem test_primes :
    primes.getD 0 0 = 2 ∧ primes.getD 1 0 = 3 ∧ primes.getD 63 0 = 311 ∧ primes.getD 79 0 = 409 ∧ primes.length = 80 := by
  decide +kernel

/-- R71: a write while BUSY is dropped and sets OVR. -/
theorem test_bus_busy_write :
    let t := stepped (busyState 0 1 [.write 0x2FC 4 1])
    t.ovr = true ∧ t.mem = [] ∧ t.env.answers = [.writeOk] := by decide

/-! ## Witnesses: each statement's hypotheses are met, each clause of it -/

theorem witness_DecodedWordIsItsEncoding : decode 0x0000FF04 = .instr (.final 255) := by decide

theorem witness_ReservedSpaceRejected :
    (8 ≤ (0xFFFFFFF8 : Word).toNat % 16 ∧ 8 ≤ (0x0000000F : Word).toNat % 16)
      ∧ ((0x00010000 : Word).toNat % 16 < 8 ∧ 2 ^ 16 ≤ (0x00010000 : Word).toNat)
      ∧ ((0x00000017 : Word).toNat % 16 ∈ [0, 3, 5, 7] ∧ ¬(0x00000017 : Word).toNat < 16)
      ∧ ((0x000000F1 : Word).toNat % 16 ∈ [1, 2] ∧ (0x000000F1 : Word).toNat < 2 ^ 8)
      ∧ ((0x00000102 : Word).toNat % 16 ∈ [1, 2] ∧ ¬(0x00000102 : Word).toNat < 2 ^ 8)
      ∧ ((0x0000FF06 : Word).toNat % 16 ∈ [4, 6] ∧ (0x0000FF06 : Word).toNat / 16 % 16 = 0)
      ∧ ((0x00000014 : Word).toNat % 16 ∈ [4, 6] ∧ (0x00000014 : Word).toNat / 16 % 16 ≠ 0) := by decide

theorem witness_StepRunsPendingCommand :
    let s := State.reset.withFetchWord 32 0x21
    s.busy = true ∧ s.resetHeld = false ∧ s.env.countdown = 0 ∧ decode s.pend = .instr (.init 2)
      ∧ decode (State.reset.withFetchWord 32 0x8).pend = .reject .illegalCmd := by decide

theorem witness_PlacedWordRunsNext : decodeTableWord 32 0x304 = some (.final 3) := by decide

theorem witness_PendingCommandCompletes :
    let s := busyState 0x7 3 [.write 0x008 4 1, .read 0x010 4, .wait, .wait, .resetPin false]
    s.busy = true ∧ s.resetHeld = false ∧ ∀ op ∈ s.env.host, op ≠ .resetPin true := by decide

theorem witness_ErrorEffect :
    let s := State.reset.withFetchWord 32 0x03
    firstError s.pend s = some .sequence := by decide

theorem witness_FirstErrorIsReported :
    firstError 0x00010008 State.reset = some .illegalCmd ∧ firstError 0x000001F1 State.reset = some .reservedField
      ∧ firstError 0x000000F1 State.reset = some .unknownAlgorithm ∧ firstError 0x0000C804 State.reset = some .sequence
      ∧ firstError 0x00004004 (session .sha1 .hash) = some .length ∧ firstError 0x00004106 State.reset = some .length
      ∧ firstError 0x00000106 (withBytes State.reset 0x280 [0x30, 0x47]) = some .hexFormat
      ∧ firstError 0x00000106 (withBytes State.reset 0x280 [0x30, 0x66]) = none := by decide

theorem witness_PhaseTransitions :
    exec .nop State.reset = .next State.reset.finish ∧ State.reset.err = false := ⟨rfl, rfl⟩

theorem witness_ResetRelease :
    let s := { busyState 0x3 0 [.resetPin false, .read 0 4] with resetHeld := true }
    s.resetHeld = true ∧ s.env.host = .resetPin false :: [.read 0 4] := by decide

theorem witness_ResetHeldStandsStill :
    let s := fun ops => { hostState ops with resetHeld := true }
    (s [.read 0 4]).env.host = .read 0 4 :: [] ∧ (s [.write 8 4 1]).env.host = .write 8 4 1 :: []
      ∧ (s [.wait]).env.host = .wait :: [] ∧ step (s []) = .next (s []) ∧ ∀ rest, (s []).env.host ≠ .resetPin false :: rest :=
  ⟨rfl, rfl, rfl, rfl, fun _ h => by cases h⟩

theorem witness_ResetAssertion : HostActs (busyState 0x3 1 [.resetPin true]) (.resetPin true) [] :=
  ⟨by decide, rfl, rfl⟩

/-- A read that is admitted, and a write that is not, in states where it is the host's turn: with and without a command. -/
theorem witness_BusErrExactlyWhenNotAdmitted :
    HostActs (hostState [.read 0x1FC 4]) (.read 0x1FC 4) [] ∧ HostActs (hostState [.read 0x1FF 4]) (.read 0x1FF 4) []
      ∧ HostActs (busyState 0 1 [.write 0x100 4 0]) (.write 0x100 4 0) []
      ∧ HostActs (busyState 0 1 [.write 0x100 2 0]) (.write 0x100 2 0) [] :=
  ⟨⟨by decide, rfl, rfl⟩, ⟨by decide, rfl, rfl⟩, ⟨by decide, rfl, rfl⟩, ⟨by decide, rfl, rfl⟩⟩

theorem witness_ReadsHaveNoSideEffect :
    HostActs (busyState 0 1 [.read 0x2FC 4]) (.read 0x2FC 4) []
      ∧ SameCore (busyState 0 2 [.read 0x004 4, .read 0x004 4]) (busyState 0 1 [.read 0x004 4])
      ∧ HostActs (busyState 0 2 [.read 0x004 4, .read 0x004 4]) (.read 0x004 4) [.read 0x004 4]
      ∧ HostActs (busyState 0 1 [.read 0x004 4]) (.read 0x004 4) [] ∧ ¬EngineWritten 0x004 ∧ ¬HostBuffer 0x004 := by
  refine ⟨⟨by decide, rfl, rfl⟩, ⟨rfl, rfl⟩, ⟨by decide, rfl, rfl⟩, ⟨by decide, rfl, rfl⟩, ?_⟩
  unfold EngineWritten HostBuffer
  omega

/-- The host's turn comes for a read of any offset while no command runs; the reserved ranges' first and last words. -/
theorem witness_RegisterMapReads :
    (∀ a : Nat, (hostState [.read (BitVec.ofNat 12 a) 4]).busy = false
      ∧ HostActs (hostState [.read (BitVec.ofNat 12 a) 4]) (.read (BitVec.ofNat 12 a) 4) [])
    ∧ Reserved 0x00C ∧ Reserved 0x020 ∧ Reserved 0x03C ∧ Reserved 0x0C0 ∧ Reserved 0x1FC ∧ Reserved 0x3FC ∧ Reserved 0x890
    ∧ Reserved 0xFFC := by
  refine ⟨fun a => ⟨rfl, ⟨(fun h => nomatch h), rfl, rfl⟩⟩, ?_⟩
  unfold Reserved
  omega

theorem witness_RomReads :
    HostActs (busyState 0 1 [.read (BitVec.ofNat 12 (0x604 + 8 * 79)) 4]) (.read (BitVec.ofNat 12 (0x604 + 8 * 79)) 4) [] :=
  ⟨by decide, rfl, rfl⟩

theorem witness_BusyReads :
    (∀ a : Nat, (busyState 0 1 [.read (BitVec.ofNat 12 a) 4]).busy = true
      ∧ HostActs (busyState 0 1 [.read (BitVec.ofNat 12 a) 4]) (.read (BitVec.ofNat 12 a) 4) [])
    ∧ EngineWritten 0x010 ∧ EngineWritten 0x0BC ∧ EngineWritten 0x27C ∧ HostBuffer 0x100 ∧ HostBuffer 0x2FC
    ∧ Reserved 0xA00 := by
  refine ⟨fun a => ⟨rfl, ⟨(fun _ h => nomatch h), rfl, rfl⟩⟩, ?_⟩
  unfold EngineWritten HostBuffer Reserved
  omega

theorem witness_BufferWriteStoresFourBytes :
    (hostState [.write (BitVec.ofNat 12 0x17C) 4 7]).busy = false ∧ HostBuffer 0x17C ∧ 0x17C % 4 = 0
      ∧ HostActs (hostState [.write (BitVec.ofNat 12 0x17C) 4 7]) (.write (BitVec.ofNat 12 0x17C) 4 7) [] :=
  ⟨rfl, .inl ⟨by decide, by decide⟩, rfl, ⟨(fun h => nomatch h), rfl, rfl⟩⟩

theorem witness_BusyWritesAreDropped :
    (∀ a : Nat, (busyState 0 1 [.write (BitVec.ofNat 12 a) 4 7]).busy = true
      ∧ HostActs (busyState 0 1 [.write (BitVec.ofNat 12 a) 4 7]) (.write (BitVec.ofNat 12 a) 4 7) [])
    ∧ HostBuffer 0x100 ∧ HostBuffer 0x2FC :=
  ⟨fun _ => ⟨rfl, ⟨(fun _ h => nomatch h), rfl, rfl⟩⟩, .inl ⟨by decide, by decide⟩, .inr ⟨by decide, by decide⟩⟩

theorem witness_ReadOnlyWritesAreIgnored :
    (∀ a : Nat, HostActs (hostState [.write (BitVec.ofNat 12 a) 4 7]) (.write (BitVec.ofNat 12 a) 4 7) [])
    ∧ Reserved 0x00C ∧ EngineWritten 0x080 ∧ RomOffset 0x400 ∧ RomOffset 0x88C ∧ RomOffset 0x9FC := by
  refine ⟨fun _ => ⟨(fun h => nomatch h), rfl, rfl⟩, ?_⟩
  unfold Reserved EngineWritten RomOffset
  omega

theorem witness_CommandAcceptance :
    (hostState [.write (BitVec.ofNat 12 0x008) 4 0xFFFFFFFF]).busy = false
      ∧ HostActs (hostState [.write (BitVec.ofNat 12 0x008) 4 0xFFFFFFFF]) (.write (BitVec.ofNat 12 0x008) 4 0xFFFFFFFF) [] :=
  ⟨rfl, ⟨(fun h => nomatch h), rfl, rfl⟩⟩

theorem witness_WaitPollsStatus :
    HostActs (hostState [.wait]) .wait [] ∧ HostActs (busyState 0 1 [.wait]) .wait [] :=
  ⟨⟨by decide, rfl, rfl⟩, ⟨by decide, rfl, rfl⟩⟩

theorem witness_NopCompletes : (0x00000010 : Word).toNat % 16 = 0 ∧ (0x00000010 : Word) ≠ 0 := by decide

theorem witness_AlgorithmCodes :
    [Alg.md5, .sha1, .sha256, .sha384, .sha512][(4 : BitVec 4).toNat]? = some .sha512
      ∧ [Alg.md5, .sha1, .sha256, .sha384, .sha512][(0 : BitVec 4).toNat]? = some .md5
      ∧ 5 ≤ (5 : BitVec 4).toNat ∧ 5 ≤ (15 : BitVec 4).toNat := by decide

theorem witness_UpdateAbsorbsBlock : (session .sha1 .hash).phase = .hash ∧ (session .sha384 .hmsg).phase = .hmsg :=
  ⟨rfl, rfl⟩

theorem witness_UpdateAbsorbsKeyBlock : (session .sha512 .hkey).phase = .hkey := rfl

theorem witness_UpdateAndFinalErrors :
    State.reset.phase = .idle ∧ (session .md5 .hkey).phase ≠ .idle ∧ blockSize (session .md5 .hkey).alg ≤ (64 : BitVec 8).toNat
      ∧ blockSize (session .sha512 .hash).alg ≤ (128 : BitVec 8).toNat := by decide

theorem witness_FinalEndsDigest :
    (session .sha384 .hash).phase = .hash ∧ (127 : BitVec 8).toNat < blockSize (session .sha384 .hash).alg
      ∧ (0 : BitVec 8).toNat < blockSize (session .sha384 .hash).alg := by decide

theorem witness_FinalEndsKey :
    (session .sha1 .hkey).phase = .hkey ∧ (63 : BitVec 8).toNat < blockSize (session .sha1 .hkey).alg := by decide

theorem witness_FinalEndsHmac :
    (session .md5 .hmsg).phase = .hmsg ∧ (63 : BitVec 8).toNat < blockSize (session .md5 .hmsg).alg := by decide

theorem witness_ClearZeroesEverything : (0x00000017 : Word).toNat % 16 = 7 ∧ (0x00000017 : Word) ≠ 7 := by decide

/-- Two states that differ outside the session, for each phase that goes on. -/
theorem witness_SessionsAreStateless :
    let s := session .sha256 .hash
    let t := { s with ovr := true, dlen := 16, pend := 7 }
    SameSession s t ∧ s.bufBytes 128 = t.bufBytes 128 ∧ s.phase = .hash ∧ (63 : BitVec 8).toNat < blockSize s.alg
      ∧ State.reset.phase = .idle :=
  ⟨⟨rfl, rfl, rfl, rfl, rfl⟩, rfl, rfl, by decide, rfl⟩

theorem witness_HexRendersDigest :
    let s := { State.reset with dlen := 64 }
    (s.dlen.toNat ≤ 64 ∧ 63 < s.dlen.toNat) ∧ (0x80000005 : Word).toNat % 16 = 5 ∧ (0x80000005 : Word) ≠ 5 := by decide

/-- Digits of each range, in both positions. -/
theorem witness_UnhexParsesText :
    let s := withBytes State.reset 0x280 [0x39, 0x41, 0x66, 0x30]
    (2 : BitVec 8).toNat ≤ 64 ∧ (∀ j < 2 * (2 : BitVec 8).toNat, s.byteAt (0x280 + j) ∈ hexDigits)
      ∧ s.byteAt 0x280 = hexChar (BitVec.ofNat 4 9) ∧ s.byteAt 0x281 = hexChar (BitVec.ofNat 4 10)
      ∧ (10 ≤ 15 ∧ s.byteAt 0x282 = BitVec.ofNat 8 (0x61 + (15 - 10))) ∧ s.byteAt 0x283 = hexChar (BitVec.ofNat 4 0) := by
  decide

theorem witness_UnhexErrors :
    64 < (65 : BitVec 8).toNat ∧ (1 : BitVec 8).toNat ≤ 64
      ∧ ∃ j < 2 * (1 : BitVec 8).toNat, (withBytes State.reset 0x280 [0x30, 0x47]).byteAt (0x280 + j) ∉ hexDigits :=
  ⟨by decide, by decide, 1, by decide, by decide⟩

/-- A digest of one byte, its text, and the host's copy of it. -/
theorem witness_HexRoundTrip :
    let s := { withBytes State.reset 0x080 [0xD4] with dlen := 1 }
    let u := withBytes State.reset 0x280 [0x44, 0x34]
    s.dlen.toNat ≤ 64 ∧ exec .hex s = .next (after .hex s)
      ∧ ∀ j < 2 * s.dlen.toNat, u.byteAt (0x280 + j) = (after .hex s).byteAt (0x200 + j) :=
  ⟨by decide, rfl, by decide +kernel⟩

/-- The invariant in a state with a running command and bytes written, where a step answers a next state. -/
theorem witness_StepKeepsInvariant :
    let s := withBytes (busyState 0x7 0 []) 0x100 abc
    s.Inv ∧ step s = .next (stepped s) := by
  refine ⟨⟨by decide, by decide, by decide, by decide, by decide, by decide, by decide, ?_, fun _ => rfl, ?_, by decide⟩, rfl⟩
  · intro i hi
    match i, hi with
    | 0, _ | 1, _ | 2, _ | 3, _ | 4, _ | 5, _ | 6, _ | 7, _ => exact ⟨fun _ => rfl, fun _ => by decide⟩
  · intro j hj _
    show (Vector.replicate 128 (0 : Byte))[j] = 0
    simp

/-- OVR is set by a dropped write, and cleared by a completed CLEAR and by reset. -/
theorem witness_OvrIsSticky :
    let s := busyState 0 1 [.write 0x008 4 1]
    let u := { busyState 0x7 0 [] with ovr := true }
    let v := { hostState [.resetPin false] with ovr := true, resetHeld := true }
    (step s = .next (stepped s) ∧ s.ovr = false ∧ (stepped s).ovr = true)
      ∧ (step u = .next (stepped u) ∧ u.ovr = true ∧ (stepped u).ovr = false)
      ∧ (step v = .next (stepped v) ∧ v.ovr = true ∧ (stepped v).ovr = false) :=
  ⟨⟨rfl, rfl, rfl⟩, ⟨rfl, rfl, rfl⟩, ⟨rfl, rfl, rfl⟩⟩

theorem witness_RegistersChangeAtCompletion :
    let s := busyState 0 1 [.write 0x100 4 1]
    step s = .next (stepped s) ∧ engineDue s = false ∧ (∀ rest, s.env.host ≠ .resetPin false :: rest) ∧ s.busy = true :=
  ⟨rfl, rfl, (fun _ h => by cases h), rfl⟩

theorem witness_KeyIsInvisibleToHost :
    let s := hostState [.read 0x040 4]
    engineDue s = false ∧ step s = .next (stepped s) := ⟨rfl, rfl⟩

theorem witness_WordOperators : (31 : Nat) < 32 ∧ 0 < (1 : Nat) ∧ (1 : Nat) < 32 := by decide

theorem witness_ByteOrders : (255 : Nat) < 2 ^ (8 * 1) ∧ (2 ^ 128 - 1 : Nat) < 2 ^ (8 * 16) := by decide

theorem witness_PaddedTail :
    (zeros 55).length < blockSize .md5 ∧ (zeros 56).length < blockSize .md5 ∧ (zeros 63).length < blockSize .sha256
      ∧ (zeros 111).length < blockSize .sha512 ∧ (zeros 112).length < blockSize .sha384
      ∧ 0 < padZeros .md5 54 := by decide

/-- Two chaining values that agree on MD5's state words and differ above them. -/
theorem witness_CompressContract :
    ∀ j < stateWords .md5,
      (chainGet ⟨1, 2, 3, 4, 0, 0, 0, 0⟩ j).toNat % 2 ^ wordWidth .md5 =
        (chainGet ⟨0x100000001, 2, 3, 4, 9, 0, 0, 0⟩ j).toNat % 2 ^ wordWidth .md5 := by decide

theorem witness_ScheduleRecurrences :
    (∀ t, (fun t => (expandSha1 abc).getD t 0) t = (expandSha1 abc).getD t 0) ∧ 16 ≤ 16 ∧ 16 < 80 ∧ 79 < 80 :=
  ⟨fun _ => rfl, by decide⟩

/-- The first and the last round of each engine have working variables to go on from. -/
theorem witness_Compressions :
    (∃ v, v = md5Rounds 63 (iv .md5) abc) ∧ (∃ v, v = sha1Rounds 79 (iv .sha1) abc)
      ∧ (∃ v, v = sha256Rounds 63 (iv .sha256) abc) ∧ (∃ v, v = sha512Rounds 79 (iv .sha512) abc) :=
  ⟨⟨_, rfl⟩, ⟨_, rfl⟩, ⟨_, rfl⟩, ⟨_, rfl⟩⟩

/-- A digest session that has absorbed one block, and a tail of a block less one byte. -/
theorem witness_SessionComputesDigest :
    let m := List.replicate 64 (0x61 : Byte)
    DigestSession { session .sha256 .hash with h := chainOf .sha256 m, len := 512 } .sha256 m
      ∧ (63 : BitVec 8).toNat < blockSize .sha256 :=
  ⟨⟨rfl, rfl, by decide, rfl, by decide⟩, by decide⟩

/-- A key of one block absorbed, and a message of one block absorbed under the key "Jefe". -/
theorem witness_SessionComputesHmac :
    let k := List.replicate 64 (0xAA : Byte)
    KeySession { session .sha1 .hkey with h := chainOf .sha1 k, len := 512, k0 := keyOfBytes (k.take 64) } .sha1 k
      ∧ 8 * k.length < 2 ^ 128
      ∧ MessageSession { session .md5 .hmsg with
          k0 := keyOfBytes (hmacKey .md5 jefe), len := 1024, h := chainOf .md5 (xorRep 0x36 (hmacKey .md5 jefe) ++ k) }
        .md5 jefe k
      ∧ (63 : BitVec 8).toNat < blockSize .sha1 :=
  ⟨⟨rfl, rfl, by decide, rfl, by decide, fun _ => rfl⟩, by decide, ⟨rfl, rfl, by decide, rfl, rfl, by decide⟩, by decide⟩

theorem witness_LongKeyIsItsDigest : blockSize .md5 < (List.replicate 65 (0 : Byte)).length := by decide

end Sys2Proof.Tests
end

section
/-!
PROOFS of 00_scope.md section 4: the word operators in numbers (R9) and the byte orders as inverse conversions (R10).
-/
namespace Sys2Proof.Machine

/-! ## Word operators -/

/-- R9: the logical shift right is the floor of the division by `2^n`. -/
@[simp] theorem toNat_shr {w : Nat} (x : BitVec w) (n : Nat) : (shr x n).toNat = x.toNat / 2 ^ n := by
  rw [shr, BitVec.toNat_ushiftRight, Nat.shiftRight_eq_div_pow]

/-- R9: the rotation joins what stays of the word shifted up and what its shift drops. -/
theorem toNat_rotl {w : Nat} (x : BitVec w) (n : Nat) :
    (rotl x n).toNat = (x.toNat * 2 ^ n % 2 ^ w) ||| (x.toNat / 2 ^ (w - n)) := by
  rw [rotl, BitVec.toNat_or, BitVec.toNat_shiftLeft, BitVec.toNat_ushiftRight, Nat.shiftLeft_eq,
    Nat.shiftRight_eq_div_pow]

/-- A rotation by 0 drops no bit, and the shift right by the whole width leaves none. -/
@[simp] theorem rotl_zero {w : Nat} (x : BitVec w) : rotl x 0 = x := by
  have hDropped : x >>> (w - 0) = 0#w := BitVec.ushiftRight_eq_zero (Nat.le_refl w)
  rw [rotl, hDropped, BitVec.shiftLeft_zero, BitVec.or_zero]

/-- Settles O46: the operators of `BitVec` by the library's lemmas, `shr` and `rotl` by their values in numbers. -/
theorem wordOperators : Obligations.WordOperators := by
  intro w x y n
  have hBits : ∀ k, (x &&& y).getLsbD k = (x.getLsbD k && y.getLsbD k)
      ∧ (x ||| y).getLsbD k = (x.getLsbD k || y.getLsbD k)
      ∧ (x ^^^ y).getLsbD k = (x.getLsbD k ^^ y.getLsbD k) :=
    fun _ => ⟨BitVec.getLsbD_and, BitVec.getLsbD_or, BitVec.getLsbD_xor⟩
  exact ⟨BitVec.toNat_add x y, BitVec.toNat_not, hBits, fun _ => toNat_shr x n, fun _ _ => toNat_rotl x n,
    rotl_zero x, fun _ _ => rfl⟩

/-! ## Byte orders -/

/-- A value of n bytes comes back from its little-endian string. -/
theorem leNat_toLE_of_lt {n v : Nat} (h : v < 2 ^ (8 * n)) : leNat (toLE n v) = v := by
  have h256 : v < 256 ^ n := by rwa [Nat.pow_mul] at h
  rw [leNat_toLE, Nat.mod_eq_of_lt h256]

/-- A value of n bytes comes back from its big-endian string, read from the last byte. -/
theorem leNat_reverse_toBE_of_lt {n v : Nat} (h : v < 2 ^ (8 * n)) : leNat (toBE n v).reverse = v := by
  rw [toBE, List.reverse_reverse, leNat_toLE_of_lt h]

/-- The bytes of a string come back from its little-endian value: its low byte is the first one, and the value without
it is the value of the rest. -/
theorem toLE_leNat (b : List Byte) : toLE b.length (leNat b) = b := by
  induction b with
  | nil => rfl
  | cons x xs ih =>
    have hLow : BitVec.ofNat 8 (x.toNat + 256 * leNat xs) = x := by
      apply BitVec.eq_of_toNat_eq
      rw [BitVec.toNat_ofNat]
      omega
    have hRest : (x.toNat + 256 * leNat xs) / 256 = leNat xs := by omega
    simp only [List.length_cons, leNat, toLE, hLow, hRest, ih]

/-- A constant factor comes out of a sum. -/
theorem sum_map_const_mul (c : Nat) (f : Nat → Nat) (l : List Nat) :
    (l.map (fun k => c * f k)).sum = c * (l.map f).sum := by
  induction l with
  | nil => rfl
  | cons k ks ih => simp only [List.map_cons, List.sum_cons, ih, Nat.mul_add]

/-- R10: byte k has the weight `2^(8k)`; the rest of a string has its weights shifted up by one byte. -/
theorem leNat_eq_sum (b : List Byte) :
    leNat b = ((List.range b.length).map (fun k => (b.getD k 0).toNat * 2 ^ (8 * k))).sum := by
  induction b with
  | nil => rfl
  | cons x xs ih =>
    have hWeight (k : Nat) : (xs.getD k 0).toNat * 2 ^ (8 * (k + 1)) = 256 * ((xs.getD k 0).toNat * 2 ^ (8 * k)) := by
      have hStep : 2 ^ (8 * (k + 1)) = 256 * 2 ^ (8 * k) := by
        rw [Nat.mul_succ, Nat.pow_add, Nat.mul_comm]
      rw [hStep, Nat.mul_left_comm]
    calc leNat (x :: xs)
        = x.toNat + 256 * ((List.range xs.length).map (fun k => (xs.getD k 0).toNat * 2 ^ (8 * k))).sum := by
          rw [leNat, ih]
      _ = x.toNat + ((List.range xs.length).map (fun k => (xs.getD k 0).toNat * 2 ^ (8 * (k + 1)))).sum := by
          simp only [hWeight, sum_map_const_mul]
      _ = ((List.range (x :: xs).length).map (fun k => ((x :: xs).getD k 0).toNat * 2 ^ (8 * k))).sum := by
          simp only [List.length_cons, List.range_succ_eq_map, List.map_cons, List.map_map, Function.comp_def,
            List.sum_cons, List.getD_cons_zero, List.getD_cons_succ, Nat.succ_eq_add_one, Nat.mul_zero, Nat.pow_zero,
            Nat.mul_one]

/-- Settles O47: each conversion is read back by the lemma about its order. -/
theorem byteOrders : Obligations.ByteOrders :=
  ⟨fun n v h => ⟨toLE_length n v, toBE_length n v, leNat_toLE_of_lt h, leNat_reverse_toBE_of_lt h⟩,
    fun b => ⟨leNat_eq_sum b, toLE_leNat b⟩⟩

end Sys2Proof.Machine
end

section
/-!
PROOFS of 10_state.md: what a turn of the host and a command's writes can change, the transitions of PHASE (R26), the STATUS
word (R27), OVR (R31), the host's blindness to K0 and PEND (R38, R39), and the invariant at reset and along every step
(R22 to R30, R44).
-/
namespace Sys2Proof.Machine

/-! ## What a turn of the host can do -/

theorem SameCore.overrun {s u : State} (h : SameCore s u) : SameCore s.overrun u.overrun :=
  ⟨congrArg State.overrun h.1, h.2⟩

theorem SameCore.storeBytes {s u : State} (h : SameCore s u) (base : Nat) (b : List Byte) :
    SameCore (s.storeBytes base b) (u.storeBytes base b) :=
  ⟨congrArg (State.storeBytes · base b) h.1, h.2⟩

/-- The latency is drawn from the environment, and what is drawn is a part of it (log entry 1). -/
theorem SameCore.accept {s u : State} (h : SameCore s u) (v : Word) : SameCore (s.accept v) (u.accept v) := by
  obtain ⟨hCore, hResets⟩ := h
  refine ⟨?_, by simp [hResets]⟩
  rw [hCore]
  rfl

/-- A transaction is admitted exactly when it moves 4 bytes at an aligned offset (20_memory.md R62). -/
theorem admitted_iff (addr : BitVec 12) (size : Nat) : admitted addr size = true ↔ addr.toNat % 4 = 0 ∧ size = 4 := by
  simp [admitted]

/-- Everything a turn of the host can do to the core; what it does to the environment is left open. -/
inductive HostEffect (s t : State) : Prop where
  /-- no operation, a read, WAIT, a refused or an ignored write, a release of an input that is not asserted -/
  | keeps (h : SameCore s t)
  /-- reset is asserted -/
  | asserts (rest : List HostOp) (hHost : s.env.host = .resetPin true :: rest)
      (h : SameCore { s with resetHeld := true } t)
  /-- reset is released -/
  | releases (rest : List HostOp) (hHost : s.env.host = .resetPin false :: rest) (hHeld : s.resetHeld = true)
      (h : t = { State.reset with env := t.env })
  /-- a write is dropped -/
  | drops (addr : BitVec 12) (v : Word) (rest : List HostOp) (hHost : s.env.host = .write addr 4 v :: rest)
      (hBusy : s.busy = true) (hAddr : addr.toNat = 0x008 ∨ HostBuffer addr.toNat) (h : SameCore s.overrun t)
  /-- a command is accepted -/
  | accepts (v : Word) (hBusy : s.busy = false) (h : SameCore (s.accept v) t)
  /-- four bytes of BUF or HEXIN are written -/
  | stores (a : Nat) (v : Word) (hBusy : s.busy = false) (hAddr : HostBuffer a)
      (h : SameCore (s.storeBytes a (toLE 4 v.toNat)) t)

/-- R370, R371: a level of the reset input asserts it, releases it, or finds nothing to release. -/
theorem resetInput_effect {s u : State} (h : SameCore s u) {b : Bool} {rest : List HostOp}
    (hHost : s.env.host = .resetPin b :: rest) : HostEffect s (u.resetInput b) := by
  obtain ⟨hCore, hResets⟩ := h
  cases b with
  | true => exact .asserts rest hHost ⟨congrArg (State.resetInput · true) hCore, hResets⟩
  | false =>
    have hSame : u.resetHeld = s.resetHeld := by rw [hCore]
    cases hHeld : s.resetHeld with
    | true => exact .releases rest hHost hHeld (by simp [State.resetInput, hSame, hHeld])
    | false =>
      have hNone : u.resetInput false = u := by simp [State.resetInput, hSame, hHeld]
      rw [hNone]
      exact .keeps ⟨hCore, hResets⟩

/-- R62, R66, R67, R70, R71: a write that is not admitted changes nothing, and `writeReg_cases` says what an admitted one
does. -/
theorem busWrite_effect {s u : State} (h : SameCore s u) {addr : BitVec 12} {size : Nat} {v : Word} {rest : List HostOp}
    (hHost : s.env.host = .write addr size v :: rest) : HostEffect s (busWrite u addr size v) := by
  have hBusy : u.busy = s.busy := by rw [h.1]
  unfold busWrite
  split
  · next hAdmitted =>
    obtain ⟨h4, rfl⟩ := (admitted_iff addr size).1 hAdmitted
    rcases writeReg_cases u addr v h4 with ht | ⟨ht, hb, ha⟩ | ⟨ht, hb, -⟩ | ⟨ht, hb, ha⟩ <;> rw [ht]
    · exact .keeps (h.trans (answer_sameCore _ _))
    · exact .drops addr v rest hHost (hBusy ▸ hb) (by unfold HostBuffer; omega) (h.overrun.trans (answer_sameCore _ _))
    · exact .accepts v (hBusy ▸ hb) ((h.accept v).trans (answer_sameCore _ _))
    · exact .stores addr.toNat v (hBusy ▸ hb) (by unfold HostBuffer; omega)
        ((h.storeBytes _ _).trans (answer_sameCore _ _))
  · exact .keeps (h.trans (answer_sameCore _ _))

/-- When the engine's step is not due, a step is a turn of the host. -/
theorem step_hostEffect {s t : State} (hDue : engineDue s = false) (h : step s = .next t) : HostEffect s t := by
  rw [step_not_due hDue] at h
  have hTick := tick_sameCore s
  rcases hostTurn_cases h with ⟨-, rfl⟩ | ⟨b, rest, hHost, rfl⟩ | ⟨-, addr, size, rest, -, rfl⟩
    | ⟨-, addr, size, v, rest, hHost, rfl⟩ | ⟨-, rest, -, rfl⟩
  · exact .keeps hTick
  · exact resetInput_effect (turn_sameCore s rest) (by simpa using hHost)
  · exact .keeps ((turn_sameCore s rest).trans (busRead_sameCore _ _ _))
  · exact busWrite_effect (turn_sameCore s rest) (by simpa using hHost)
  · refine .keeps (SameCore.trans ?_ (busRead_sameCore _ _ _))
    split
    · exact hTick
    · exact turn_sameCore s rest

/-! ## What a command's writes leave alone -/

/-- UPDATE in HKEY writes K0, H and LEN alone (49_hmac_wrapper.md R311). -/
theorem State.absorbKeyBlock_frame (s : State) : ∃ k c l, s.absorbKeyBlock = { s with k0 := k, h := c, len := l } := by
  unfold State.absorbKeyBlock
  split <;> exact ⟨_, _, _, rfl⟩

/-- FINAL goes on from HKEY to HMSG, and ends every other session (R26). -/
theorem State.finalWrites_frame (s : State) (n : Nat) :
    ∃ k c l d m, s.finalWrites n =
      { s with phase := if s.phase = .hkey then .hmsg else .idle, k0 := k, h := c, len := l, dlen := d, mem := m } := by
  unfold State.finalWrites
  split
  · next hPhase => rw [if_pos hPhase]; exact ⟨_, _, _, _, _, rfl⟩
  · next hPhase => rw [if_neg (by simp [hPhase])]; exact ⟨_, _, _, _, _, rfl⟩
  · next hPhase _ => rw [if_neg hPhase]; exact ⟨_, _, _, _, _, rfl⟩

/-- The phase after a command that completes without error in phase `p` (R26). -/
def phaseAfter (i : Instr) (p : Phase) : Phase :=
  match i with
  | .init _ => .hash
  | .hinit _ => .hkey
  | .final _ => if p = .hkey then .hmsg else .idle
  | .clear => .idle
  | .nop | .update | .hex | .unhex _ => p

/-- A command's writes leave the completion flags, PEND, the reset input and the environment, move PHASE as R26 says, and
leave OVR but in CLEAR (R31). -/
theorem CommandWrites.frame {i : Instr} {s u : State} (h : CommandWrites i s u) :
    u = { s with
        ovr := u.ovr, alg := u.alg, phase := phaseAfter i s.phase, dlen := u.dlen, h := u.h, len := u.len, k0 := u.k0,
        mem := u.mem }
      ∧ (i ≠ .clear → u.ovr = s.ovr) := by
  cases i with
  | nop => cases h; exact ⟨rfl, fun _ => rfl⟩
  | init c => obtain ⟨a, -, rfl⟩ := h; exact ⟨rfl, fun _ => rfl⟩
  | hinit c => obtain ⟨a, -, rfl⟩ := h; exact ⟨rfl, fun _ => rfl⟩
  | update =>
    obtain ⟨-, rfl⟩ := h
    split
    · obtain ⟨k, c, l, hWrites⟩ := s.absorbKeyBlock_frame
      rw [hWrites]
      exact ⟨rfl, fun _ => rfl⟩
    · exact ⟨rfl, fun _ => rfl⟩
  | final n =>
    obtain ⟨-, -, rfl⟩ := h
    obtain ⟨k, c, l, d, m, hWrites⟩ := s.finalWrites_frame n.toNat
    rw [hWrites]
    exact ⟨rfl, fun _ => rfl⟩
  | hex => cases h; exact ⟨rfl, fun _ => rfl⟩
  | unhex n => obtain ⟨-, -, rfl⟩ := h; exact ⟨rfl, fun _ => rfl⟩
  | clear =>
    obtain ⟨m, hBuffers⟩ : ∃ m, s.zeroBuffers = { s with mem := m } := ⟨_, rfl⟩
    cases h
    rw [hBuffers]
    exact ⟨rfl, fun hOther => absurd rfl hOther⟩

theorem CommandWrites.err {i : Instr} {s u : State} (h : CommandWrites i s u) : u.err = s.err := by
  rw [h.frame.1]

theorem CommandWrites.phase {i : Instr} {s u : State} (h : CommandWrites i s u) : u.phase = phaseAfter i s.phase := by
  rw [h.frame.1]

theorem CommandWrites.ovr {i : Instr} {s u : State} (h : CommandWrites i s u) (hi : i ≠ .clear) : u.ovr = s.ovr :=
  h.frame.2 hi

/-- Everything the engine's step can do: end in an error, or complete the decoded command. -/
theorem engineStep_completes {s t : State} (h : engineStep s = .next t) :
    (∃ e, t = s.raise e) ∨ ∃ i u, decode s.pend = .instr i ∧ t = u.finish ∧ CommandWrites i s u := by
  rcases engineStep_cases h with hRaise | ⟨i, hi, hExec⟩
  · exact .inl hRaise
  · rcases exec_cases hExec with hRaise | ⟨u, ht, hu⟩
    · exact .inl hRaise
    · exact .inr ⟨i, u, hi, ht, hu⟩

/-! ## PHASE (R26) -/

/-- Settles O11: an error sets ERR and ends the session; a success leaves ERR low and moves PHASE by `phaseAfter`. -/
theorem phaseTransitions : Obligations.PhaseTransitions := by
  intro i s t h hNoErr
  rcases exec_cases h with ⟨e, rfl⟩ | ⟨u, rfl, hu⟩
  · rfl
  · have hErr : u.finish.err = false := hu.err.trans hNoErr
    rw [hErr]
    cases i <;> exact hu.phase

/-! ## STATUS (R27) -/

/-- A bit of the STATUS word is a binary digit of its number. -/
theorem statusWord_getLsbD_of_digit {s : State} {b : Nat} {f : Bool} (h : (statusWord s).toNat / 2 ^ b % 2 = f.toNat) :
    (statusWord s).getLsbD b = f := by
  rw [BitVec.getLsbD, Nat.testBit_eq_decide_div_mod_eq, h]
  cases f <;> rfl

/-- A wider field of the STATUS word is a group of digits of its number. -/
theorem statusWord_extractLsb'_of_digit {s : State} {lo n : Nat} {f : BitVec n}
    (h : (statusWord s).toNat / 2 ^ lo % 2 ^ n = f.toNat) : (statusWord s).extractLsb' lo n = f := by
  apply BitVec.eq_of_toNat_eq
  rw [BitVec.extractLsb'_toNat, Nat.shiftRight_eq_div_pow, h]

/-- Settles O25: the fields are the digits of the word's number, each below the weight of the next. -/
theorem statusFields : Obligations.StatusFields := by
  intro s
  have hNumber := statusWord_toNat s
  have hBusy := s.busy.toNat_le
  have hDone := s.done.toNat_le
  have hErr := s.err.toNat_le
  have hOvr := s.ovr.toNat_le
  have hErrCode := s.errCode.isLt
  have hAlg := (algCode s.alg).isLt
  have hPhase := (phaseCode s.phase).isLt
  have hDlen := s.dlen.isLt
  refine ⟨statusWord_getLsbD_of_digit (by omega), statusWord_getLsbD_of_digit (by omega),
    statusWord_getLsbD_of_digit (by omega), statusWord_getLsbD_of_digit (by omega),
    statusWord_extractLsb'_of_digit (by omega), ?_, ?_, statusWord_extractLsb'_of_digit (by omega), ?_⟩
  · have hCode : (statusWord s).extractLsb' 8 3 = algCode s.alg := statusWord_extractLsb'_of_digit (by omega)
    rw [hCode]
    cases s.alg <;> rfl
  · have hCode : (statusWord s).extractLsb' 12 2 = phaseCode s.phase := statusWord_extractLsb'_of_digit (by omega)
    rw [hCode]
    cases s.phase <;> rfl
  · have hZero (b : Nat) (h : (statusWord s).toNat / 2 ^ b % 2 = 0) : (statusWord s).getLsbD b = false :=
      statusWord_getLsbD_of_digit h
    rintro b (rfl | rfl | rfl | hb)
    · exact hZero 11 (by omega)
    · exact hZero 14 (by omega)
    · exact hZero 15 (by omega)
    · have hBelow : (statusWord s).toNat < 2 ^ b :=
        Nat.lt_of_lt_of_le (by omega) (Nat.pow_le_pow_right Nat.two_pos hb)
      exact Nat.testBit_lt_two_pow hBelow

/-! ## OVR (R31) -/

theorem SameCore.ovr {s t : State} (h : SameCore s t) : t.ovr = s.ovr := by rw [h.1]

/-- A flag that keeps its value is neither set nor cleared. -/
theorem not_changed_of_eq {a b : Bool} {p q : Prop} (h : b = a) :
    (a = false → b = true → p) ∧ (a = true → b = false → q) := by
  subst h
  cases b <;> simp

/-- Settles O43: of the completions only CLEAR writes OVR, and of the host's turns only a dropped write and the release
of reset. -/
theorem ovrIsSticky : Obligations.OvrIsSticky := by
  intro s t hStep
  cases hDue : engineDue s with
  | true =>
    rw [step_due hDue] at hStep
    rcases engineStep_completes hStep with ⟨e, rfl⟩ | ⟨i, u, hi, rfl, hu⟩
    · exact not_changed_of_eq rfl
    · by_cases hClear : i = .clear
      · subst hClear
        cases hu
        exact ⟨fun _ hSet => absurd hSet (by simp), fun _ _ => .inr ⟨rfl, hi⟩⟩
      · exact not_changed_of_eq (hu.ovr hClear)
  | false =>
    cases step_hostEffect hDue hStep with
    | keeps h => exact not_changed_of_eq h.ovr
    | asserts rest hHost h => exact not_changed_of_eq h.ovr
    | releases rest hHost hHeld h =>
      have hOvr : t.ovr = false := by rw [h]; rfl
      exact ⟨fun _ hSet => absurd hSet (by simp [hOvr]), fun _ _ => .inl ⟨hHeld, rest, hHost⟩⟩
    | drops addr v rest hHost hBusy hAddr h =>
      exact ⟨fun _ _ => ⟨hBusy, addr, v, rest, hHost, hAddr⟩, fun _ hCleared => absurd hCleared (by simp [h.ovr])⟩
    | accepts v hBusy h => exact not_changed_of_eq h.ovr
    | stores a v hBusy hAddr h => exact not_changed_of_eq h.ovr

/-! ## K0 and PEND (R38, R39) -/

/-- The state with other values of K0 and PEND. -/
def State.withKey (s : State) (k : Vector Byte 128) (p : Word) : State := { s with k0 := k, pend := p }

theorem State.tick_withKey (s : State) (k : Vector Byte 128) (p : Word) : (s.withKey k p).tick = s.tick.withKey k p := by
  cases hBusy : s.busy <;> simp [State.tick, State.withKey, hBusy]

theorem State.countDraw_withKey (s : State) (k : Vector Byte 128) (p : Word) (addr : BitVec 12) :
    (s.withKey k p).countDraw addr = (s.countDraw addr).withKey k p := by
  have hFree : readIsFree (s.withKey k p) addr = readIsFree s addr := rfl
  unfold State.countDraw
  rw [hFree]
  split <;> rfl

/-- R75: no register of the window shows K0 or PEND. -/
theorem readWord_withKey (s : State) (k : Vector Byte 128) (p : Word) (addr : BitVec 12) :
    readWord (s.withKey k p) addr = readWord s addr := by
  have hValue : ∀ r off, regValue (s.withKey k p) r off = regValue s r off := fun r off => by cases r <;> rfl
  have hFree : readIsFree (s.withKey k p) addr = readIsFree s addr := rfl
  unfold readWord
  rw [hValue, hFree]
  rfl

theorem busRead_withKey (s : State) (k : Vector Byte 128) (p : Word) (addr : BitVec 12) (size : Nat) :
    busRead (s.withKey k p) addr size = (busRead s addr size).withKey k p := by
  unfold busRead
  rw [readWord_withKey, State.countDraw_withKey]
  split <;> rfl

theorem writeReg_withKey (s : State) (k : Vector Byte 128) (p : Word) (r : BusReg) (off : Nat) (v : Word) :
    ∃ p', writeReg (s.withKey k p) r off v = (writeReg s r off v).withKey k p' := by
  have hBusy : (s.withKey k p).busy = s.busy := rfl
  cases r with
  | cmd =>
    simp only [writeReg, hBusy]
    split
    · exact ⟨p, rfl⟩
    · exact ⟨v, rfl⟩
  | buf | hexIn =>
    simp only [writeReg, State.writeBuffer, hBusy]
    split <;> exact ⟨p, rfl⟩
  | _ => exact ⟨p, rfl⟩

theorem busWrite_withKey (s : State) (k : Vector Byte 128) (p : Word) (addr : BitVec 12) (size : Nat) (v : Word) :
    ∃ p', busWrite (s.withKey k p) addr size v = (busWrite s addr size v).withKey k p' := by
  unfold busWrite
  split
  · obtain ⟨p', h⟩ := writeReg_withKey s k p (regAt addr.toNat).1 (regAt addr.toNat).2 v
    exact ⟨p', by rw [h]; rfl⟩
  · exact ⟨p, rfl⟩

theorem State.resetInput_withKey (s : State) (k : Vector Byte 128) (p : Word) (b : Bool) :
    ∃ k' p', (s.withKey k p).resetInput b = (s.resetInput b).withKey k' p' := by
  have hHeld : (s.withKey k p).resetHeld = s.resetHeld := rfl
  unfold State.resetInput
  rw [hHeld]
  split
  · exact ⟨k, p, rfl⟩
  · split
    · exact ⟨State.reset.k0, State.reset.pend, rfl⟩
    · exact ⟨k, p, rfl⟩

/-- A turn of the host is the same whatever K0 and PEND hold. -/
theorem hostTurn_withKey {s t : State} (k : Vector Byte 128) (p : Word) (h : hostTurn s = .next t) :
    ∃ k' p', hostTurn (s.withKey k p) = .next (t.withKey k' p') := by
  have hEnv : (s.withKey k p).env = s.env := rfl
  have hHeld : (s.withKey k p).resetHeld = s.resetHeld := rfl
  have hBusy : (s.withKey k p).busy = s.busy := rfl
  have hSet : ∀ ops, (s.withKey k p).setHost ops = (s.setHost ops).withKey k p := fun _ => rfl
  rcases hostTurn_cases h with ⟨hHost, rfl⟩ | ⟨b, rest, hHost, rfl⟩ | ⟨hr, addr, size, rest, hHost, rfl⟩
    | ⟨hr, addr, size, v, rest, hHost, rfl⟩ | ⟨hr, rest, hHost, rfl⟩
  · exact ⟨k, p, by simp [hostTurn, hEnv, hHost]⟩
  · obtain ⟨k', p', hReset⟩ := (s.setHost rest).resetInput_withKey k p b
    exact ⟨k', p', by simp [hostTurn, hEnv, hHost, hSet, hReset]⟩
  · exact ⟨k, p, by simp [hostTurn, hEnv, hHeld, hr, hHost, hSet, busRead_withKey]⟩
  · obtain ⟨p', hWrite⟩ := busWrite_withKey (s.setHost rest) k p addr size v
    exact ⟨k, p', by simp [hostTurn, hEnv, hHeld, hr, hHost, hSet, hWrite]⟩
  · refine ⟨k, p, ?_⟩
    rw [← busRead_withKey]
    cases hb : s.busy <;> simp [hostTurn, hEnv, hHeld, hBusy, hb, hr, hHost, hSet]

/-- Settles O45: every operation of a turn of the host commutes with the change of K0 and PEND. -/
theorem keyIsInvisibleToHost : Obligations.KeyIsInvisibleToHost := by
  intro s t k p hDue hStep
  rw [step_not_due hDue] at hStep
  have hDue' : engineDue (s.withKey k p) = false := hDue
  obtain ⟨k', p', hTurn⟩ := hostTurn_withKey k p hStep
  refine ⟨t.withKey k' p', ?_, rfl, rfl⟩
  rw [← hTurn, ← State.tick_withKey]
  exact step_not_due hDue'

/-! ## The invariant: what each operation keeps of it -/

/-- The zero K0 has no byte past a block. -/
theorem zeroKey_fits (n j : Nat) (hj : j < 128) (_ : n ≤ j) : (Vector.replicate 128 (0 : Byte))[j] = 0 :=
  Vector.getElem_replicate _

/-- Settles O41: the flags are low, and H, K0 and the memory are the zero and empty ones. -/
theorem resetHasInvariant : Obligations.ResetHasInvariant where
  mem_wf := ⟨List.Pairwise.nil, fun _ hc => absurd hc List.not_mem_nil⟩
  done_or_busy := by decide
  err_iff := by decide
  err_range := by decide
  busy_no_err := by decide
  err_idle := by decide
  dlen_values := by decide
  chain_fits := zero_fits _
  no_key := fun _ => rfl
  key_fits := zeroKey_fits _
  len_blocks := fun h => absurd rfl h

/-- The invariant says nothing of OVR, PEND, the reset input and the environment. -/
theorem State.Inv.withFree {s : State} (h : s.Inv) (ovr : Bool) (pend : Word) (held : Bool) (env : Env) :
    State.Inv { s with ovr := ovr, pend := pend, resetHeld := held, env := env } := { h with }

theorem State.Inv.of_sameCore {s t : State} (h : s.Inv) (hst : SameCore s t) : t.Inv := by
  rw [hst.1]
  exact h.withFree s.ovr s.pend s.resetHeld t.env

theorem State.Inv.storeBytes {s : State} (h : s.Inv) {base : Nat} {b : List Byte}
    (hb : ∀ a, base ≤ a → a < base + b.length → isBufferAddr a = true) : (s.storeBytes base b).Inv :=
  { h with mem_wf := Memory.store_wf h.mem_wf hb }

/-- Acceptance clears the flags of the last command, so it needs nothing of them (R375). -/
theorem State.Inv.accept {s : State} (h : s.Inv) (v : Word) : (s.accept v).Inv :=
  { h with
    done_or_busy := by simp
    err_iff := by simp
    err_range := by simp
    busy_no_err := by simp
    err_idle := by simp }

theorem State.Inv.finish {s : State} (h : s.Inv) : s.finish.Inv :=
  { h with
    done_or_busy := by simp
    busy_no_err := by simp }

theorem errCodeOf_range (e : CmdError) : errCodeOf e ≠ 0 ∧ (errCodeOf e).toNat ≤ 6 := by
  cases e <;> decide

/-- An error ends the session, which takes the key and the count of blocks with it (60_exceptions.md R342). -/
theorem State.Inv.raise {s : State} (h : s.Inv) (e : CmdError) : (s.raise e).Inv :=
  { h with
    done_or_busy := by simp
    err_iff := ⟨fun _ => (errCodeOf_range e).1, fun _ => rfl⟩
    err_range := (errCodeOf_range e).2
    busy_no_err := by simp
    err_idle := by simp
    no_key := fun _ => rfl
    key_fits := zeroKey_fits _
    len_blocks := by simp }

/-! ## The invariant: what a command's writes keep of it -/

/-- LEN modulo 2^128 stays a number of whole blocks, since a block's bits divide 2^128 (R23). -/
theorem len_add_block_mod (a : Alg) {l : BitVec 128} (h : l.toNat % (8 * blockSize a) = 0) :
    (l + BitVec.ofNat 128 (8 * blockSize a)).toNat % (8 * blockSize a) = 0 := by
  rw [BitVec.toNat_add, BitVec.toNat_ofNat]
  cases a <;> simp only [blockSize] at h ⊢ <;> omega

theorem keyOfBytes_getElem_of_length_le {b : List Byte} {j : Nat} (hj : j < 128) (h : b.length ≤ j) :
    (keyOfBytes b)[j] = 0 := by
  show (fit 128 b)[j]'(by simpa using hj) = 0
  have hb : b.length ≤ 128 := by omega
  simp only [fit_of_length_le hb]
  rw [List.getElem_append_right h]
  exact List.getElem_replicate _

theorem State.Inv.startSession {s : State} (h : s.Inv) (hErr : s.err = false) (a : Alg) (p : Phase) :
    (s.startSession a p).Inv :=
  { h with
    err_idle := fun hSet => absurd (hErr.symm.trans hSet) (by decide)
    chain_fits := iv_fits a
    no_key := fun _ => rfl
    key_fits := zeroKey_fits _
    len_blocks := fun _ => Nat.zero_mod _ }

theorem State.Inv.absorbBlock {s : State} (h : s.Inv) : s.absorbBlock.Inv :=
  { h with
    chain_fits := compress_fits _ _ _
    len_blocks := fun hPhase => len_add_block_mod s.alg (h.len_blocks hPhase) }

theorem State.Inv.absorbKeyBlock {s : State} (h : s.Inv) (hPhase : s.phase = .hkey) : s.absorbKeyBlock.Inv := by
  unfold State.absorbKeyBlock
  split
  · refine State.Inv.absorbBlock { h with no_key := ?_, key_fits := ?_ }
    · intro hp
      simp [hPhase] at hp
    · intro j hj hFrom
      exact keyOfBytes_getElem_of_length_le hj (by simpa using hFrom)
  · exact h.absorbBlock

/-- R312: K0 comes from less than a block of bytes, from the key block kept before, or from a digest. -/
theorem State.Inv.finalKey_fits {s : State} (h : s.Inv) {n : Nat} (hn : n < blockSize s.alg) (j : Nat) (hj : j < 128)
    (hFrom : blockSize s.alg ≤ j) : (s.finalKey n)[j] = 0 := by
  unfold State.finalKey
  split
  · split
    · exact keyOfBytes_getElem_of_length_le hj (by rw [State.bufBytes_length]; omega)
    · exact h.key_fits j hj hFrom
  · have hDigest := outputLength_lt_blockSize s.alg
    exact keyOfBytes_getElem_of_length_le hj (by rw [serialize_length]; omega)

theorem State.Inv.endKey {s : State} (h : s.Inv) (hErr : s.err = false) {n : Nat} (hn : n < blockSize s.alg) :
    (s.endKey n).Inv :=
  { h with
    err_idle := fun hSet => absurd (hErr.symm.trans hSet) (by decide)
    chain_fits := compress_fits _ _ _
    no_key := fun hp => by rcases hp with hp | hp <;> cases hp
    key_fits := h.finalKey_fits hn
    len_blocks := fun _ => by
      have hLen := len_add_block_mod s.alg (l := 0#128) (Nat.zero_mod _)
      rwa [BitVec.zero_add] at hLen }

theorem outputLength_dlen (a : Alg) : (BitVec.ofNat 7 (outputLength a)).toNat ∈ [0, 16, 20, 32, 48, 64] := by
  cases a <;> decide

theorem State.Inv.setDigest {s : State} (h : s.Inv) (a : Alg) (d : List Byte) : (s.setDigest a d).Inv :=
  { h.storeBytes (base := digestBase) (b := fit 64 d) (fun _ h1 h2 => isBufferAddr_digest h1 (by simpa using h2)) with
    dlen_values := outputLength_dlen a }

theorem State.Inv.endDigest {s : State} (h : s.Inv) (hPhase : s.phase = .hash) (n : Nat) : (s.endDigest n).Inv :=
  { h.setDigest s.alg _ with
    err_idle := fun _ => rfl
    chain_fits := finishHash_fits _ _ _ _
    no_key := fun _ => h.no_key (.inr hPhase)
    len_blocks := fun hp => absurd rfl hp }

theorem State.Inv.endHmac {s : State} (h : s.Inv) (n : Nat) : (s.endHmac n).Inv :=
  { h.setDigest s.alg _ with
    err_idle := fun _ => rfl
    chain_fits := finishHash_fits _ _ _ _
    no_key := fun _ => rfl
    key_fits := zeroKey_fits _
    len_blocks := fun hp => absurd rfl hp }

theorem State.Inv.finalWrites {s : State} (h : s.Inv) (hErr : s.err = false) (hPhase : s.phase ≠ .idle) {n : Nat}
    (hn : n < blockSize s.alg) : (s.finalWrites n).Inv := by
  unfold State.finalWrites
  cases hp : s.phase with
  | idle => exact absurd hp hPhase
  | hash => exact h.endDigest hp n
  | hkey => exact h.endKey hErr hn
  | hmsg => exact h.endHmac n

theorem State.Inv.zeroBuffers {s : State} (h : s.Inv) : s.zeroBuffers.Inv :=
  (((h.storeBytes fun _ h1 h2 => isBufferAddr_digest h1 (by simpa using h2)).storeBytes fun _ h1 h2 =>
    isBufferAddr_buf h1 (by simpa using h2)).storeBytes fun _ h1 h2 =>
    isBufferAddr_hexOut h1 (by simpa using h2)).storeBytes fun _ h1 h2 => isBufferAddr_hexIn h1 (by simpa using h2)

theorem State.Inv.clear {s : State} (h : s.Inv) :
    State.Inv { s.zeroBuffers with
      h := Chain.zero, len := 0, alg := .md5, phase := .idle, dlen := 0, k0 := Vector.replicate 128 0, ovr := false } :=
  { h.zeroBuffers with
    err_idle := fun _ => rfl
    dlen_values := List.mem_cons_self
    chain_fits := zero_fits _
    no_key := fun _ => rfl
    key_fits := zeroKey_fits _
    len_blocks := fun hp => absurd rfl hp }

/-- The writes of a command accepted without error keep the invariant. -/
theorem CommandWrites.inv {i : Instr} {s u : State} (h : s.Inv) (hErr : s.err = false) (hu : CommandWrites i s u) :
    u.Inv := by
  cases i with
  | nop => cases hu; exact h
  | init c => obtain ⟨a, -, rfl⟩ := hu; exact h.startSession hErr a .hash
  | hinit c => obtain ⟨a, -, rfl⟩ := hu; exact h.startSession hErr a .hkey
  | update =>
    obtain ⟨-, rfl⟩ := hu
    split
    · next hPhase => exact h.absorbKeyBlock hPhase
    · exact h.absorbBlock
  | final n => obtain ⟨hPhase, hn, rfl⟩ := hu; exact h.finalWrites hErr hPhase hn
  | hex => cases hu; exact h.storeBytes fun _ h1 h2 => isBufferAddr_hexOut h1 (by simpa using h2)
  | unhex n =>
    obtain ⟨hn, -, rfl⟩ := hu
    have hLength := unhexText_length n.toNat (s.hexInBytes (2 * n.toNat)) (by simp)
    exact h.storeBytes fun _ h1 h2 => isBufferAddr_buf h1 (by omega)
  | clear => cases hu; exact h.clear

/-! ## The invariant along a step -/

theorem engineStep_inv {s t : State} (h : s.Inv) (hErr : s.err = false) (hStep : engineStep s = .next t) : t.Inv := by
  rcases engineStep_completes hStep with ⟨e, rfl⟩ | ⟨i, u, -, rfl, hu⟩
  · exact h.raise e
  · exact (hu.inv h hErr).finish

/-- A word of BUF or HEXIN lies in the buffers with all its four bytes. -/
theorem HostBuffer.isBufferAddr {a c : Nat} (h : HostBuffer a) (h1 : a ≤ c) (h2 : c < a + 4) : isBufferAddr c = true := by
  rcases h with h | h
  · exact isBufferAddr_buf (by simp only [bufBase]; omega) (by simp only [bufBase]; omega)
  · exact isBufferAddr_hexIn (by simp only [hexInBase]; omega) (by simp only [hexInBase]; omega)

theorem HostEffect.inv {s t : State} (h : s.Inv) (hEffect : HostEffect s t) : t.Inv := by
  cases hEffect with
  | keeps hCore => exact h.of_sameCore hCore
  | asserts rest hHost hCore => exact (h.withFree s.ovr s.pend true s.env).of_sameCore hCore
  | releases rest hHost hHeld ht =>
    rw [ht]
    exact resetHasInvariant.withFree false 0 false t.env
  | drops addr v rest hHost hBusy hAddr hCore => exact (h.withFree true s.pend s.resetHeld s.env).of_sameCore hCore
  | accepts v hBusy hCore => exact (h.accept v).of_sameCore hCore
  | stores a v hBusy hAddr hCore =>
    exact (h.storeBytes fun _ h1 h2 => hAddr.isBufferAddr h1 (by simpa using h2)).of_sameCore hCore

/-- Settles O42: the engine's step completes a command accepted without error, and every other step is a turn of the
host. -/
theorem stepKeepsInvariant : Obligations.StepKeepsInvariant := by
  intro s t h hStep
  cases hDue : engineDue s with
  | true =>
    obtain ⟨hBusy, -, -⟩ := (engineDue_iff s).1 hDue
    rw [step_due hDue] at hStep
    exact engineStep_inv h (h.busy_no_err hBusy) hStep
  | false => exact (step_hostEffect hDue hStep).inv h

end Sys2Proof.Machine
end

section
/-!
PROOFS of 20_memory.md: what a read answers by the register map and while a command runs (R63 to R66, R68, R69, R72), what a
write leaves (R64, R66, R67, R70, R71), and when the results change (R65, R77).
-/
namespace Sys2Proof.Machine

/-! ## Word offsets of the window (R61, R62, R63) -/

theorem toNat_offset {a : Nat} (ha : a < 4096) : (BitVec.ofNat 12 a).toNat = a := by
  rw [BitVec.toNat_ofNat, Nat.mod_eq_of_lt ha]

theorem admitted_word {a : Nat} (ha : a < 4096) (h4 : a % 4 = 0) : admitted (BitVec.ofNat 12 a) 4 = true := by
  rw [admitted_iff, toNat_offset ha]
  exact ⟨h4, rfl⟩

/-- Every row of the map starts at a word and ends in the window. -/
theorem busMap_words : ∀ r ∈ busMap, r.base % 4 = 0 ∧ r.base + r.size ≤ 4096 := by decide

/-- The offsets of R72 are those of the registers whose busy-time reads are unspecified. -/
theorem freeWhileBusy_regAt {a : Nat} (h4 : a % 4 = 0) (h : EngineWritten a ∨ HostBuffer a) :
    freeWhileBusy (regAt a).1 = true := by
  rcases h with h | h
  · rcases regAt_engineWritten h h4 with hr | hr | hr | hr <;> rw [hr] <;> rfl
  · rcases regAt_hostBuffer h h4 with ⟨hr, -⟩ | ⟨hr, -⟩ <;> rw [hr] <;> rfl

theorem lt_window_of_engineWritten_or_hostBuffer {a : Nat} (h : EngineWritten a ∨ HostBuffer a) : a < 4096 := by
  unfold EngineWritten HostBuffer at h
  omega

/-! ## What a read answers -/

/-- The answer to `Read(addr, size)` (R60, R62, R69). -/
def readAnswer (s : State) (addr : BitVec 12) (size : Nat) : BusAnswer :=
  if admitted addr size then .readOk (readWord s addr) else .busErr

@[simp] theorem busRead_env_answers (s : State) (addr : BitVec 12) (size : Nat) :
    (busRead s addr size).env.answers = readAnswer s addr size :: s.env.answers := by
  unfold busRead readAnswer
  split <;> simp

theorem readIsFree_congr {s u : State} (h : SameCore s u) (addr : BitVec 12) : readIsFree u addr = readIsFree s addr := by
  unfold readIsFree
  rw [h.1]

/-- A word depends on the core and, where R72 leaves it open, on the free values drawn so far. -/
theorem readWord_congr {s u : State} (h : SameCore s u) {addr : BitVec 12}
    (hDraws : readIsFree s addr = true → u.env.draws = s.env.draws) : readWord u addr = readWord s addr := by
  unfold readWord
  rw [readIsFree_congr h, regValue_congr h]
  split
  · next hFree => rw [hDraws hFree]
  · rfl

theorem readAnswer_congr {s u : State} (h : SameCore s u) {addr : BitVec 12} {size : Nat}
    (hDraws : admitted addr size = true → readIsFree s addr = true → u.env.draws = s.env.draws) :
    readAnswer u addr size = readAnswer s addr size := by
  unfold readAnswer
  split
  · next hAdmitted => rw [readWord_congr h (hDraws hAdmitted)]
  · rfl

/-- The turn of the host gives the answer of the state before it. -/
theorem turn_busRead_answers (s : State) (rest : List HostOp) (addr : BitVec 12) (size : Nat) :
    (busRead (s.tick.setHost rest) addr size).env.answers = readAnswer s addr size :: s.env.answers := by
  rw [busRead_env_answers, readAnswer_congr (turn_sameCore s rest) fun _ _ => s.tick_env_draws]
  simp

theorem turn_busRead_sameCore (s : State) (rest : List HostOp) (addr : BitVec 12) (size : Nat) :
    SameCore s (busRead (s.tick.setHost rest) addr size) :=
  (turn_sameCore s rest).trans (busRead_sameCore _ _ _)

/-- Settles O16: a turn's read changes the environment alone, and its answer is a function of the core unless R72 makes it
a free value. -/
theorem readsHaveNoSideEffect : Obligations.ReadsHaveNoSideEffect := by
  intro s addr size rest hActs
  refine ⟨⟨_, step_read hActs, turn_busRead_sameCore s rest addr size⟩, ?_⟩
  intro u rest' hCore hActs' hDefined
  have hAnswer : readAnswer u addr size = readAnswer s addr size := by
    refine readAnswer_congr hCore fun hAdmitted hFree => ?_
    obtain ⟨h4, -⟩ := (admitted_iff addr size).1 hAdmitted
    obtain ⟨hBusy, hReg⟩ : s.busy = true ∧ freeWhileBusy (regAt addr.toNat).1 = true := by
      simpa [readIsFree] using hFree
    obtain ⟨hEngine, hHost⟩ := hDefined hBusy
    exact absurd (freeWhileBusy_offset h4 hReg) (not_or.2 ⟨hEngine, hHost⟩)
  exact ⟨_, _, readAnswer s addr size, step_read hActs, step_read hActs', turn_busRead_answers s rest addr size,
    hAnswer ▸ turn_busRead_answers u rest' addr size⟩

/-- A word whose register R72 does not make unspecified answers that register's value. -/
theorem readAnswers_of_regAt {s : State} {a off : Nat} {reg : BusReg} (ha : a < 4096) (h4 : a % 4 = 0)
    (hReg : regAt a = (reg, off)) (hDefined : s.busy = true → freeWhileBusy reg = false) :
    ReadAnswers s a (regValue s reg off) := by
  intro rest hActs
  have hNotFree : readIsFree s (BitVec.ofNat 12 a) = false := by
    rw [readIsFree, toNat_offset ha, hReg]
    simpa using hDefined
  refine ⟨_, step_read hActs, ?_, by simp, turn_busRead_sameCore s rest _ 4⟩
  rw [turn_busRead_answers, readAnswer, admitted_word ha h4, readWord, hNotFree, toNat_offset ha, hReg]
  rfl

/-- `readAnswers_of_regAt` at a word of a row of the map, `off` bytes from its base (R63). -/
theorem readAnswers_of_row {s : State} {base size off : Nat} {reg : BusReg} (hRow : ⟨base, size, reg⟩ ∈ busMap)
    (hOff : off < size) (h4 : off % 4 = 0) (hDefined : s.busy = true → freeWhileBusy reg = false) :
    ReadAnswers s (base + off) (regValue s reg off) := by
  obtain ⟨hBase, hEnd⟩ : base % 4 = 0 ∧ base + size ≤ 4096 := busMap_words _ hRow
  have hReg : regAt (base + off) = (reg, off) := by
    rw [regAt_of_row base size reg hRow (by omega) (by omega), Nat.add_sub_cancel_left]
  exact readAnswers_of_regAt (by omega) (by omega) hReg hDefined

theorem readAnswers_id (s : State) : ReadAnswers s 0x000 0x4A53071F :=
  readAnswers_of_row (base := 0x000) (size := 4) (off := 0) (reg := .id) (by decide) (by decide) rfl fun _ => rfl

theorem readAnswers_status (s : State) : ReadAnswers s 0x004 (statusWord s) :=
  readAnswers_of_row (base := 0x004) (size := 4) (off := 0) (reg := .status) (by decide) (by decide) rfl fun _ => rfl

theorem readAnswers_cmd (s : State) : ReadAnswers s 0x008 0 :=
  readAnswers_of_row (base := 0x008) (size := 4) (off := 0) (reg := .cmd) (by decide) (by decide) rfl fun _ => rfl

theorem readAnswers_reserved (s : State) {a : Nat} (h : Reserved a) (h4 : a % 4 = 0) : ReadAnswers s a 0 :=
  readAnswers_of_regAt (by unfold Reserved at h; omega) h4 (regAt_reserved h h4) fun _ => rfl

/-- R65: the low word of `H[i]` lies 8i bytes from the base of H, the high word 4 bytes after it. -/
theorem regValue_h (s : State) (i : Nat) :
    regValue s .h (8 * i) = (chainGet s.h i).extractLsb' 0 32
      ∧ regValue s .h (8 * i + 4) = (chainGet s.h i).extractLsb' 32 32 := by
  have hLow : 8 * i / 8 = i ∧ 8 * i % 8 = 0 := by omega
  have hHigh : (8 * i + 4) / 8 = i ∧ (8 * i + 4) % 8 = 4 := by omega
  simp only [regValue, hLow, hHigh, and_self]

/-- Settles O17: row by row of the map, each buffer word by `bufferWord_eq`. -/
theorem registerMapReads : Obligations.RegisterMapReads := by
  intro s hIdle
  have hRow {base size off : Nat} {reg : BusReg} (hMem : ⟨base, size, reg⟩ ∈ busMap) (hOff : off < size)
      (h4 : off % 4 = 0) : ReadAnswers s (base + off) (regValue s reg off) :=
    readAnswers_of_row hMem hOff h4 fun hBusy => absurd (hIdle.symm.trans hBusy) (by decide)
  refine ⟨readAnswers_id s, readAnswers_status s, readAnswers_cmd s, fun i hi => ?_, fun i hi => ?_, fun i hi => ?_,
    fun j hj => ?_, fun j hj => ?_, fun j hj => ?_, fun j hj => ?_, fun a => readAnswers_reserved s⟩
  · have hLen := hRow (base := 0x010) (size := 0x010) (off := 4 * i) (reg := .len) (by decide) (by omega) (by omega)
    have hBits : 8 * (4 * i) = 32 * i := by omega
    rwa [regValue, hBits] at hLen
  · rw [← (regValue_h s i).1]
    exact hRow (size := 0x040) (by decide) (by omega) (by omega)
  · have hHigh : 0x044 + 8 * i = 0x040 + (8 * i + 4) := by omega
    rw [← (regValue_h s i).2, hHigh]
    exact hRow (size := 0x040) (by decide) (by omega) (by omega)
  · rw [← bufferWord_eq]
    exact hRow (size := 0x040) (reg := .digest) (by decide) (by omega) (by omega)
  · rw [← bufferWord_eq]
    exact hRow (size := 0x080) (reg := .buf) (by decide) (by omega) (by omega)
  · rw [← bufferWord_eq]
    exact hRow (size := 0x080) (reg := .hexOut) (by decide) (by omega) (by omega)
  · rw [← bufferWord_eq]
    exact hRow (size := 0x080) (reg := .hexIn) (by decide) (by omega) (by omega)

/-- R72: a free read answers the next free value. -/
theorem readAnswer_of_free {s : State} {addr : BitVec 12} {size : Nat} (hAdmitted : admitted addr size = true)
    (hFree : readIsFree s addr = true) : readAnswer s addr size = .readOk (Config.busyRead s.env.draws) := by
  rw [readAnswer, if_pos hAdmitted, readWord, if_pos hFree]

/-- A free read uses up one free value, so that the next one is fresh (log entry 2). -/
theorem busRead_env_draws_of_free {s : State} {addr : BitVec 12} {size : Nat} (hAdmitted : admitted addr size = true)
    (hFree : readIsFree s addr = true) : (busRead s addr size).env.draws = s.env.draws + 1 := by
  rw [busRead, if_pos hAdmitted, State.countDraw, if_pos hFree]
  rfl

/-- Settles O19: the offsets of R72 read free values, and the other registers answer as ever. -/
theorem busyReads : Obligations.BusyReads := by
  intro s hBusy
  refine ⟨fun a h4 hOpen rest hActs => ?_, readAnswers_id s, readAnswers_status s, readAnswers_cmd s,
    fun a => readAnswers_reserved s⟩
  have ha := lt_window_of_engineWritten_or_hostBuffer hOpen
  have hAdmitted := admitted_word ha h4
  have hFree : readIsFree s (BitVec.ofNat 12 a) = true := by
    rw [readIsFree, toNat_offset ha, hBusy, freeWhileBusy_regAt h4 hOpen]
    rfl
  have hFreeTurn : readIsFree (s.tick.setHost rest) (BitVec.ofNat 12 a) = true := by
    rw [readIsFree_congr (turn_sameCore s rest), hFree]
  refine ⟨_, step_read hActs, ?_, ?_, turn_busRead_sameCore s rest _ 4⟩
  · rw [turn_busRead_answers, readAnswer_of_free hAdmitted hFree]
  · rw [busRead_env_draws_of_free hAdmitted hFreeTurn]
    simp

/-! ## What a write leaves -/

/-- A write to a word of the window answers OK and does what `writeReg` does to the register there. -/
theorem writeLeaves_of_writeReg {s u : State} {a : Nat} {v : Word} (ha : a < 4096) (h4 : a % 4 = 0)
    (hWrite : ∀ w, SameCore s w → SameCore u (writeReg w (regAt a).1 (regAt a).2 v)) : WriteLeaves s a v u := by
  intro rest hActs
  have hBus : busWrite (s.tick.setHost rest) (BitVec.ofNat 12 a) 4 v
      = (writeReg (s.tick.setHost rest) (regAt a).1 (regAt a).2 v).answer .writeOk := by
    rw [busWrite, if_pos (admitted_word ha h4), toNat_offset ha]
  refine ⟨_, (step_write hActs).trans (congrArg Host.Outcome.next hBus), by simp, by simp, ?_⟩
  exact (hWrite _ (turn_sameCore s rest)).trans (answer_sameCore _ _)

theorem lt_window_of_hostBuffer {a : Nat} (h : HostBuffer a) : a < 4096 :=
  lt_window_of_engineWritten_or_hostBuffer (.inr h)

theorem SameCore.busy {s t : State} (h : SameCore s t) : t.busy = s.busy := by rw [h.1]

theorem State.writeBuffer_of_idle {s : State} (h : s.busy = false) (a : Nat) (v : Word) :
    s.writeBuffer a v = s.storeBytes a (toLE 4 v.toNat) := by
  simp [State.writeBuffer, h]

theorem State.writeBuffer_of_busy {s : State} (h : s.busy = true) (a : Nat) (v : Word) :
    s.writeBuffer a v = s.overrun := by
  simp [State.writeBuffer, h]

/-- R64, R70: a word written to BUF or HEXIN while no command runs is stored there. -/
theorem writeLeaves_storeBytes {s : State} {a : Nat} (v : Word) (hIdle : s.busy = false) (hBuffer : HostBuffer a)
    (h4 : a % 4 = 0) : WriteLeaves s a v (s.storeBytes a (toLE 4 v.toNat)) := by
  refine writeLeaves_of_writeReg (lt_window_of_hostBuffer hBuffer) h4 fun w hCore => ?_
  rw [writeReg_hostBuffer w v hBuffer h4, State.writeBuffer_of_idle (hCore.busy.trans hIdle)]
  exact hCore.storeBytes _ _

/-- Settles O20: the bytes inside and outside the stored word by the two laws of `storeBytes`. -/
theorem bufferWriteStoresFourBytes : Obligations.BufferWriteStoresFourBytes := by
  intro s a v rest hIdle hBuffer h4 hActs
  obtain ⟨t, hStep, hAnswer, -, hCore⟩ := writeLeaves_storeBytes v hIdle hBuffer h4 rest hActs
  refine ⟨t, hStep, hAnswer, hCore.2, fun k hk => ?_, fun b hb => ?_, ?_⟩
  · have hIn : k < (toLE 4 v.toNat).length := by simpa using hk
    rw [hCore.byteAt, State.byteAt_storeBytes_inside s hIn, toLE_four_getElem]
  · rw [hCore.byteAt, State.byteAt_storeBytes_outside s (by simpa using hb)]
  · have hMem : t.mem = (s.storeBytes a (toLE 4 v.toNat)).mem := by rw [hCore.1]
    rw [hMem]
    exact hCore.1

/-- Settles O21: CMD, BUF and HEXIN are the registers that a running command makes drop their writes. -/
theorem busyWritesAreDropped : Obligations.BusyWritesAreDropped := by
  rintro s a v hBusy (rfl | ⟨hBuffer, h4⟩)
  · refine writeLeaves_of_writeReg (by decide) rfl fun w hCore => ?_
    have hReg : regAt 0x008 = (.cmd, 0) := regAt_of_row 0x008 0x004 .cmd (by decide) (by decide) (by decide)
    have hDrop : writeReg w .cmd 0 v = w.overrun := by simp [writeReg, hCore.busy, hBusy]
    rw [hReg, hDrop]
    exact hCore.overrun
  · refine writeLeaves_of_writeReg (lt_window_of_hostBuffer hBuffer) h4 fun w hCore => ?_
    rw [writeReg_hostBuffer w v hBuffer h4, State.writeBuffer_of_busy (hCore.busy.trans hBusy)]
    exact hCore.overrun

/-- R66, R67: only CMD, BUF and HEXIN are writable. -/
theorem writeReg_of_readOnly (s : State) {r : BusReg} (off : Nat) (v : Word) (hCmd : r ≠ .cmd) (hBuf : r ≠ .buf)
    (hHexIn : r ≠ .hexIn) : writeReg s r off v = s := by
  cases r with
  | cmd => exact absurd rfl hCmd
  | buf => exact absurd rfl hBuf
  | hexIn => exact absurd rfl hHexIn
  | _ => rfl

/-- Settles O22: none of these offsets is one of CMD, BUF or HEXIN. -/
theorem readOnlyWritesAreIgnored : Obligations.ReadOnlyWritesAreIgnored := by
  intro s a v h4 hReadOnly
  unfold Reserved EngineWritten RomOffset at hReadOnly
  have ha : a < 4096 := by omega
  obtain ⟨hCmd, hBuf, hHexIn⟩ := regAt_writable a ha h4
  refine writeLeaves_of_writeReg ha h4 fun w hCore => ?_
  rw [writeReg_of_readOnly w _ v (fun hr => ?_) (fun hr => ?_) (fun hr => ?_)]
  · exact hCore
  · have hAt := hCmd hr
    omega
  · obtain ⟨-, hFrom, hTo⟩ := hBuf hr
    omega
  · obtain ⟨-, hFrom, hTo⟩ := hHexIn hr
    omega

/-! ## When the results change (R65, R77) -/

/-- The registers that hold a command's results. -/
def State.results (s : State) : Chain × BitVec 128 × Alg × Phase × BitVec 7 × Vector Byte 128 :=
  (s.h, s.len, s.alg, s.phase, s.dlen, s.k0)

theorem SameCore.results {s t : State} (h : SameCore s t) : t.results = s.results := by
  rw [h.1]
  rfl

/-- A turn of the host that does not release reset leaves the results. -/
theorem HostEffect.results {s t : State} (h : HostEffect s t) (hNoRelease : ∀ rest, s.env.host ≠ .resetPin false :: rest) :
    t.results = s.results := by
  cases h with
  | keeps hCore => exact hCore.results
  | asserts rest hHost hCore => exact hCore.results
  | releases rest hHost => exact absurd hHost (hNoRelease rest)
  | drops addr v rest hHost hBusy hAddr hCore => exact hCore.results
  | accepts v hBusy hCore => exact hCore.results
  | stores a v hBusy hAddr hCore => exact hCore.results

/-- It leaves every byte outside BUF and HEXIN, and while a command runs those too. -/
theorem HostEffect.byteAt {s t : State} (h : HostEffect s t) (hNoRelease : ∀ rest, s.env.host ≠ .resetPin false :: rest)
    {a : Nat} (ha : s.busy = true ∨ ¬((0x100 ≤ a ∧ a < 0x180) ∨ (0x280 ≤ a ∧ a < 0x300))) :
    t.byteAt a = s.byteAt a := by
  cases h with
  | keeps hCore => exact hCore.byteAt a
  | asserts rest hHost hCore => exact hCore.byteAt a
  | releases rest hHost => exact absurd hHost (hNoRelease rest)
  | drops addr v rest hHost hBusy hAddr hCore => exact hCore.byteAt a
  | accepts v hBusy hCore => exact (hCore.byteAt a).trans (State.byteAt_congr (s := s) (t := s.accept v) rfl (by simp) a)
  | stores base v hIdle hBase hCore =>
    have hOutside : a < base ∨ base + (toLE 4 v.toNat).length ≤ a := by
      rw [toLE_length]
      unfold HostBuffer at hBase
      simp only [hIdle, Bool.false_eq_true, false_or] at ha
      omega
    rw [hCore.byteAt, State.byteAt_storeBytes_outside s hOutside]

/-- Settles O44: such a step is a turn of the host, and of the host's turns only the release of reset touches the results. -/
theorem registersChangeAtCompletion : Obligations.RegistersChangeAtCompletion := by
  intro s t hStep hDue hNoRelease
  have hEffect := step_hostEffect hDue hStep
  have hResults := hEffect.results hNoRelease
  simp only [State.results, Prod.mk.injEq] at hResults
  obtain ⟨hH, hLen, hAlg, hPhase, hDlen, hK0⟩ := hResults
  exact ⟨hH, hLen, hAlg, hPhase, hDlen, hK0, fun a ha => hEffect.byteAt hNoRelease (.inr (by omega)),
    fun hBusy a => hEffect.byteAt hNoRelease (.inl hBusy)⟩

end Sys2Proof.Machine
end

section
/-!
PROOFS of 30_encoding.md: decoding and encoding as inverses (R96, R98, R99), the field constraints per opcode (R95, R97), the
ALG field of INIT and HINIT (R93), and WAIT (R100).
-/
namespace Sys2Proof.Machine

/-! ## Decoding of an encoded command (R99) -/

/-- Settles O1: command by command, the fields of `commandWord` are the ones that the decoder's checks ask for. -/
theorem decodeOfEncode : Obligations.DecodeOfEncode := by
  intro i
  cases i <;> simp [encode, decode, fields_commandWord, checkFields]

/-- Settles O3: each word is the one that `encode` gives its command. -/
theorem specWordsDecode : Obligations.SpecWordsDecode :=
  ⟨decodeOfEncode .nop, decodeOfEncode (.init 2), decodeOfEncode (.final 3), decodeOfEncode (.hinit 4),
    decodeOfEncode (.unhex 32), decodeOfEncode .update, decodeOfEncode .hex, decodeOfEncode .clear⟩

/-! ## The field constraints (R95) -/

/-- A word with RSV zero is the command word of its own fields. -/
theorem commandWord_eq {v : Word} {n : BitVec 8} {alg op : BitVec 4} (hRsv : v.toNat < 65536)
    (hN : n.toNat = v.toNat / 256 % 256) (hAlg : alg.toNat = v.toNat / 16 % 16) (hOp : op.toNat = v.toNat % 16) :
    commandWord n alg op = v := by
  apply BitVec.eq_of_toNat_eq
  rw [commandWord_toNat]
  omega

/-- R95: the word has RSV zero, N zero but for FINAL and UNHEX, and ALG zero but for INIT and HINIT. -/
structure FieldsFit (v : Word) : Prop where
  rsv : v.toNat < 65536
  n : v.toNat % 16 ≠ 4 → v.toNat % 16 ≠ 6 → v.toNat / 256 % 256 = 0
  alg : v.toNat % 16 ≠ 1 → v.toNat % 16 ≠ 2 → v.toNat / 16 % 16 = 0

theorem fieldsFit_iff (v : Word) :
    FieldsFit v ↔ v.toNat < 65536 ∧ (v.toNat % 16 ≠ 4 → v.toNat % 16 ≠ 6 → v.toNat / 256 % 256 = 0)
      ∧ (v.toNat % 16 ≠ 1 → v.toNat % 16 ≠ 2 → v.toNat / 16 % 16 = 0) :=
  ⟨fun ⟨hRsv, hN, hAlg⟩ => ⟨hRsv, hN, hAlg⟩, fun ⟨hRsv, hN, hAlg⟩ => ⟨hRsv, hN, hAlg⟩⟩

theorem not_fieldsFit_of_rsv {v : Word} (hRsv : 65536 ≤ v.toNat) : ¬FieldsFit v :=
  fun hFit => Nat.not_lt.2 hRsv hFit.rsv

/-- R97: the reserved opcodes. -/
theorem decode_of_reserved_op {v : Word} (hOp : 8 ≤ v.toNat % 16) : decode v = .reject .illegalCmd := by
  rcases decode_cases v with ⟨-, h⟩ | ⟨hLt, -⟩ | ⟨-, h⟩
  · exact h
  · omega
  · omega

/-- R95: with an opcode that is not reserved, decoding is one check of the fields, and a word that passes it is the
command's own. -/
theorem decode_of_op {v : Word} (hOp : v.toNat % 16 < 8) :
    ∃ ok i, decode v = checkFields ok i ∧ (ok = true ↔ FieldsFit v) ∧ (FieldsFit v → encode i = v) := by
  rcases decode_cases v with ⟨h8, -⟩ | ⟨-, hRsv, h⟩ | ⟨hRsv, h⟩
  · omega
  · have hNot := not_fieldsFit_of_rsv hRsv
    exact ⟨false, .nop, h, by simp [hNot], fun hFit => absurd hFit hNot⟩
  · rcases h with ⟨hOp, h⟩ | ⟨hOp, h⟩ | ⟨hOp, h⟩ | ⟨hOp, h⟩ | ⟨hOp, h⟩ | ⟨hOp, h⟩ | ⟨hOp, h⟩ | ⟨hOp, h⟩ <;>
      refine ⟨_, _, h, by simp [fieldsFit_iff, hRsv, hOp, and_comm], fun hFit => commandWord_eq hRsv ?_ ?_ ?_⟩ <;>
      simp [hOp, nField_toNat, algField_toNat, hFit.n, hFit.alg]

/-- Settles O2: only a word that passes the check of its fields decodes to a command. -/
theorem decodedWordIsItsEncoding : Obligations.DecodedWordIsItsEncoding := by
  intro v i h
  rcases Nat.lt_or_ge (v.toNat % 16) 8 with hOp | hOp
  · obtain ⟨ok, j, hDecode, hOk, hEncode⟩ := decode_of_op hOp
    obtain ⟨hPass, rfl⟩ := checkFields_instr (hDecode.symm.trans h)
    exact hEncode (hOk.1 hPass)
  · rw [decode_of_reserved_op hOp] at h
    cases h

/-- A word with an opcode that is not reserved decodes to a command or raises RESERVED_FIELD, by any condition `p` that
says what its fields must be. -/
theorem decodes_or_reservedField {v : Word} (hOp : v.toNat % 16 < 8) {p : Prop} [Decidable p] (hFit : FieldsFit v ↔ p) :
    if p then ∃ i, decode v = .instr i else decode v = .reject .reservedField := by
  obtain ⟨ok, i, hDecode, hOk, -⟩ := decode_of_op hOp
  rw [hFit] at hOk
  cases ok
  · rw [if_neg (by simpa using hOk)]
    exact hDecode
  · rw [if_pos (hOk.1 rfl)]
    exact ⟨i, hDecode⟩

/-- Settles O4: in each row of R95's table, the word's number says whether its fields fit. -/
theorem reservedSpaceRejected : Obligations.ReservedSpaceRejected := by
  refine ⟨fun v => decode_of_reserved_op, fun v hOp hRsv => ?_, fun v hOp => ?_, fun v hOp => ?_, fun v hOp => ?_⟩
  · simpa using decodes_or_reservedField hOp (iff_false_intro (not_fieldsFit_of_rsv hRsv))
  all_goals
    simp only [List.mem_cons, List.not_mem_nil, or_false] at hOp
    exact decodes_or_reservedField (by omega) (by rw [fieldsFit_iff]; omega)

/-! ## The ALG field of INIT and HINIT (R93) -/

/-- The codes name the algorithms in the order of R93's list. -/
theorem algOfCode_eq_getElem? (c : BitVec 4) :
    algOfCode c = [Alg.md5, .sha1, .sha256, .sha384, .sha512][c.toNat]? := by
  revert c
  decide

theorem exec_init_of_some {c : BitVec 4} {a : Alg} (h : algOfCode c = some a) (s : State) :
    exec (.init c) s = .next (s.startSession a .hash).finish := by
  simp [exec, execInit, h, succeed]

theorem exec_hinit_of_some {c : BitVec 4} {a : Alg} (h : algOfCode c = some a) (s : State) :
    exec (.hinit c) s = .next (s.startSession a .hkey).finish := by
  simp [exec, execHinit, h, succeed]

theorem exec_init_of_none {c : BitVec 4} (h : algOfCode c = none) (s : State) :
    exec (.init c) s = .next (s.raise .unknownAlgorithm) := by
  simp [exec, execInit, h, fail]

theorem exec_hinit_of_none {c : BitVec 4} (h : algOfCode c = none) (s : State) :
    exec (.hinit c) s = .next (s.raise .unknownAlgorithm) := by
  simp [exec, execHinit, h, fail]

/-- Settles O28: a code of R93's list starts its algorithm's session, and from 5 on the list is at its end. -/
theorem algorithmCodes : Obligations.AlgorithmCodes := by
  intro s c
  refine ⟨fun a hCode => ?_, fun hCode => ?_⟩
  · rw [← algOfCode_eq_getElem?] at hCode
    exact ⟨⟨_, exec_init_of_some hCode s, rfl, rfl⟩, ⟨_, exec_hinit_of_some hCode s, rfl, rfl⟩⟩
  · have hNone : algOfCode c = none := by
      rw [algOfCode_eq_getElem?]
      exact List.getElem?_eq_none hCode
    exact ⟨exec_init_of_none hNone s, exec_hinit_of_none hNone s⟩

/-! ## WAIT (R100) -/

/-- R100: WAIT reads STATUS, and stays the host's next operation while the engine is busy. -/
theorem step_wait {s : State} {rest : List HostOp} (h : HostActs s .wait rest) :
    step s = .next (busRead (s.tick.setHost (if s.busy then .wait :: rest else rest)) 0x004 4) := by
  have hStays : s.tick.setHost (.wait :: rest) = s.tick := by
    rw [← h.next, ← s.tick_env_host]
    rfl
  rw [step_not_due h.notDue]
  cases hBusy : s.busy <;> simp [hostTurn, h.next, h.released, hBusy, hStays]

/-- STATUS is none of the registers whose busy-time reads are unspecified (R72). -/
theorem readAnswer_status (s : State) : readAnswer s 0x004 4 = .readOk (statusWord s) := by
  have hReg : regAt (0x004 : BitVec 12).toNat = (.status, 0) := by decide
  have hAdmitted : admitted 0x004 4 = true := by decide
  have hNotFree : readIsFree s 0x004 = false := by
    rw [readIsFree, hReg]
    exact Bool.and_false _
  rw [readAnswer, if_pos hAdmitted, readWord, hNotFree, hReg]
  rfl

/-- Settles O24: WAIT's turn is a read of STATUS. -/
theorem waitPollsStatus : Obligations.WaitPollsStatus := by
  intro s rest hActs
  refine ⟨_, step_wait hActs, ?_, turn_busRead_sameCore s _ 0x004 4, by simp⟩
  rw [turn_busRead_answers, readAnswer_status]

end Sys2Proof.Machine
end

section
/-!
PROOFS of 40_word_ops_and_padding.md: the padded tail (R122, R123, R124), the digest as one pass over the padded message
(R127) and its serialisation (R126), and what compression leaves and reads (R128).
-/
namespace Sys2Proof.Machine

/-! ## The padded tail (R122, R123, R124) -/

/-- The length field, read in its algorithm's byte order, is the message length modulo the field's size. -/
theorem leNat_lengthBytes (a : Alg) (total : Nat) :
    (if a = .md5 then leNat (lengthBytes a total) else leNat (lengthBytes a total).reverse) =
      total % 2 ^ (8 * lengthField a) := by
  have hFits : total % 2 ^ (8 * lengthField a) < 2 ^ (8 * lengthField a) := Nat.mod_lt _ (Nat.two_pow_pos _)
  cases a with
  | md5 => exact leNat_toLE_of_lt hFits
  | sha1 => exact leNat_reverse_toBE_of_lt hFits
  | sha256 => exact leNat_reverse_toBE_of_lt hFits
  | sha384 => exact leNat_reverse_toBE_of_lt hFits
  | sha512 => exact leNat_reverse_toBE_of_lt hFits

/-- No smaller number of zero bytes completes a block. The other bytes end inside a block, or no zero byte would be needed,
and z more bytes do not reach its end. -/
theorem padZeros_least (a : Alg) {n z : Nat} (h : z < padZeros a n) :
    (n + 1 + z + lengthField a) % blockSize a ≠ 0 := by
  have hInside : z < blockSize a - (n + 1 + lengthField a) % blockSize a := Nat.lt_of_lt_of_le h (Nat.mod_le _ _)
  have hNotWhole : (n + 1 + lengthField a) % blockSize a ≠ 0 := by
    intro hWhole
    rw [padZeros, hWhole, Nat.sub_zero, Nat.mod_self] at h
    omega
  have hRest : (n + 1 + z + lengthField a) % blockSize a = (n + 1 + lengthField a) % blockSize a + z := by
    rw [Nat.add_right_comm, ← Nat.mod_add_mod, Nat.mod_eq_of_lt (by omega)]
  omega

/-- Settles O48: the parts are those of `pad`, with the lemma about each. -/
theorem paddedTail : Obligations.PaddedTail := by
  intro a total tail hTail
  exact ⟨padZeros a tail.length, lengthBytes a total, rfl, lengthBytes_length a total, leNat_lengthBytes a total,
    fun _ => padZeros_least a, pad_length a total tail hTail⟩

/-! ## The digest as one pass over the padded message (R127) -/

/-- R123: the padded tail is whole blocks. -/
theorem pad_length_mod (a : Alg) (total : Nat) {tail : List Byte} (hTail : tail.length < blockSize a) :
    (pad a total tail).length % blockSize a = 0 := by
  rw [pad_length a total tail hTail]
  split
  · exact Nat.mod_self _
  · exact Nat.mul_mod_left _ _

/-- R125: finishing a message after its whole blocks `m` compresses the one or two blocks of the padded tail. -/
theorem finishHash_chainOf (a : Alg) {m tail : List Byte} (hm : m.length % blockSize a = 0)
    (hTail : tail.length < blockSize a) :
    finishHash a (chainOf a m) (8 * m.length % 2 ^ 128) tail =
      chainOf a (m ++ pad a (8 * (m ++ tail).length % 2 ^ 128) tail) := by
  have hTotal : (8 * m.length % 2 ^ 128 + 8 * tail.length) % 2 ^ 128 = 8 * (m ++ tail).length % 2 ^ 128 := by
    rw [List.length_append]
    omega
  have hPad := pad_length a (8 * (m ++ tail).length % 2 ^ 128) tail hTail
  rw [finishHash, hTotal]
  generalize pad a (8 * (m ++ tail).length % 2 ^ 128) tail = p at hPad ⊢
  have hPos := blockSize_pos a
  split at hPad
  · rw [if_neg (by omega), List.take_of_length_le (by omega), chainOf_append_block a m p hm hPad]
  · have hFirst : (p.take (blockSize a)).length = blockSize a := by
      rw [List.length_take]
      omega
    have hSecond : (p.drop (blockSize a)).length = blockSize a := by
      rw [List.length_drop]
      omega
    have hWhole : (m ++ p.take (blockSize a)).length % blockSize a = 0 := by
      rw [List.length_append, hFirst, Nat.add_mod_right, hm]
    rw [if_pos hPad, ← chainOf_append_block a m _ hm hFirst, ← chainOf_append_block a _ _ hWhole hSecond,
      List.append_assoc, List.take_append_drop]

/-- R127 for a message cut into its whole blocks and its tail. -/
theorem digest_eq_chainOf_padded (a : Alg) {m tail : List Byte} (hm : m.length % blockSize a = 0)
    (hTail : tail.length < blockSize a) :
    digest a (m ++ tail) = serialize a (chainOf a (m ++ pad a (8 * (m ++ tail).length % 2 ^ 128) tail)) := by
  rw [digest_append_tail a m tail hm hTail, finishHash_chainOf a hm hTail]

/-! ## Serialisation (R126) -/

/-- R22: a 32-bit state word is bits 31:0 of its register. -/
theorem toNat_lowWord (c : Chain) (i : Nat) : (lowWord c i).toNat = (chainGet c i).toNat % 2 ^ 32 :=
  BitVec.toNat_setWidth 32 _

/-- The string of the first n registers, each by `f`, written out register by register. -/
theorem flatMap_chainGet (c : Chain) (n : Nat) (f : DWord → List Byte) :
    (List.range n).flatMap (fun j => f (chainGet c j)) = ((List.range n).map (chainGet c)).flatMap f := by
  rw [List.flatMap_map]

/-- Settles O49: the message is its whole blocks and its tail, and the registers of a serialisation are listed by their
indices. -/
theorem digestIsAbsorbOfPadded : Obligations.DigestIsAbsorbOfPadded := by
  refine ⟨fun a m => ?_, fun c => ?_⟩
  · intro k padded
    have hLe : k * blockSize a ≤ m.length := Nat.div_mul_le_self _ _
    have hBlocks : (m.take (k * blockSize a)).length % blockSize a = 0 := by
      rw [List.length_take_of_le hLe, Nat.mul_mod_left]
    have hTail : (m.drop (k * blockSize a)).length < blockSize a := by
      have hMod : m.length % blockSize a < blockSize a := Nat.mod_lt _ (blockSize_pos a)
      rwa [List.length_drop, ← Nat.mod_eq_sub_div_mul]
    have hDigest := digest_eq_chainOf_padded a hBlocks hTail
    rw [List.take_append_drop] at hDigest
    refine ⟨?_, hDigest, ?_⟩
    · rw [List.length_append, Nat.add_mod, hBlocks, pad_length_mod a _ hTail, Nat.zero_mod]
    · rw [hDigest, serialize_length]
  · simp only [serialize, toNat_lowWord]
    exact ⟨flatMap_chainGet c 4 (fun x => toLE 4 (x.toNat % 2 ^ 32)),
      flatMap_chainGet c 5 (fun x => toBE 4 (x.toNat % 2 ^ 32)),
      flatMap_chainGet c 8 (fun x => toBE 4 (x.toNat % 2 ^ 32)),
      flatMap_chainGet c 6 (fun x => toBE 8 x.toNat), flatMap_chainGet c 8 (fun x => toBE 8 x.toNat)⟩

/-! ## What compression reads of the chaining value (R128) -/

theorem lowWord_congr {c d : Chain} {j : Nat} (h : (chainGet c j).toNat % 2 ^ 32 = (chainGet d j).toNat % 2 ^ 32) :
    lowWord c j = lowWord d j := by
  apply BitVec.eq_of_toNat_eq
  rw [toNat_lowWord, toNat_lowWord, h]

/-- The eight registers are the whole of a chaining value. -/
theorem chain_eq_of_chainGet {c d : Chain} (h : ∀ j < 8, chainGet c j = chainGet d j) : c = d := by
  cases c
  cases d
  rw [Chain.mk.injEq]
  exact ⟨h 0 (by decide), h 1 (by decide), h 2 (by decide), h 3 (by decide), h 4 (by decide), h 5 (by decide),
    h 6 (by decide), h 7 (by decide)⟩

/-- The 64-bit algorithms' state words are all the bits of all the registers. -/
theorem chain_eq_of_mod {c d : Chain} (h : ∀ j < 8, (chainGet c j).toNat % 2 ^ 64 = (chainGet d j).toNat % 2 ^ 64) :
    c = d := by
  refine chain_eq_of_chainGet fun j hj => BitVec.eq_of_toNat_eq ?_
  rw [← Nat.mod_eq_of_lt (chainGet c j).isLt, ← Nat.mod_eq_of_lt (chainGet d j).isLt, h j hj]

/-- Chaining values that agree in the algorithm's state words compress alike. -/
theorem compress_congr (a : Alg) {c d : Chain} (b : List Byte)
    (h : ∀ j < stateWords a, (chainGet c j).toNat % 2 ^ wordWidth a = (chainGet d j).toNat % 2 ^ wordWidth a) :
    compress a c b = compress a d b := by
  cases a with
  | md5 =>
    have hLow : ∀ j < 4, lowWord c j = lowWord d j := fun j hj => lowWord_congr (h j hj)
    simp (disch := decide) only [compress, compressMd5, md5Rounds, hLow]
  | sha1 =>
    have hLow : ∀ j < 5, lowWord c j = lowWord d j := fun j hj => lowWord_congr (h j hj)
    simp (disch := decide) only [compress, compressSha1, sha1Rounds, hLow]
  | sha256 =>
    have hLow : ∀ j < 8, lowWord c j = lowWord d j := fun j hj => lowWord_congr (h j hj)
    simp (disch := decide) only [compress, compressSha256, sha256Rounds, hLow]
  | sha384 => rw [chain_eq_of_mod h]
  | sha512 => rw [chain_eq_of_mod h]

/-- Settles O50: the widths and zeros of the result, the block's first bytes, the state words' own bits. -/
theorem compressContract : Obligations.CompressContract :=
  fun a c _ b => ⟨compress_fits a c b, compress_take a c b (Nat.le_refl _), compress_congr a b⟩

end Sys2Proof.Machine
end

section
/-!
PROOFS of 41_schedule_expander.md: what a schedule made by a recurrence holds, and the four schedules word by word
(R141 to R144).
-/
namespace Sys2Proof.Machine

/-! ## The block's words (R121) -/

theorem getD_map_range {α : Type} (f : Nat → α) (d : α) {n t : Nat} (h : t < n) :
    ((List.range n).map f).getD t d = f t := by
  simp [h]

theorem wordsLE_getD (b : List Byte) {j : Nat} (h : j < 16) :
    (wordsLE b).getD j 0 = leWord 32 ((b.drop (4 * j)).take 4) :=
  getD_map_range _ 0 h

theorem wordsBE_getD (w : Nat) (b : List Byte) {t : Nat} (h : t < 16) :
    (wordsBE w b).getD t 0 = beWord w ((b.drop (w / 8 * t)).take (w / 8)) :=
  getD_map_range _ 0 h

theorem wordsBE_length (w : Nat) (b : List Byte) : (wordsBE w b).length = 16 := by
  simp [wordsBE]

/-! ## MD5's order of the words (R141) -/

theorem expandMd5_length (b : List Byte) : (expandMd5 b).length = 64 := by
  simp [expandMd5]

theorem md5Index_lt (i : Nat) : md5Index i < 16 := by
  unfold md5Index
  split
  · assumption
  · split
    · exact Nat.mod_lt _ (by decide)
    · split <;> exact Nat.mod_lt _ (by decide)

theorem expandMd5_getD (b : List Byte) {i : Nat} (h : i < 64) :
    (expandMd5 b).getD i 0 = leWord 32 ((b.drop (4 * md5Index i)).take 4) := by
  rw [expandMd5, getD_map_range _ 0 h, wordsLE_getD b (md5Index_lt i)]

/-! ## Schedules by a recurrence -/

theorem getD_append_of_lt {α : Type} (l m : List α) (d : α) {t : Nat} (h : t < l.length) :
    (l ++ m).getD t d = l.getD t d := by
  rw [List.getD_eq_getElem?_getD, List.getElem?_append_left h, List.getD_eq_getElem?_getD]

theorem getD_concat_length {α : Type} (l : List α) (x d : α) : (l ++ [x]).getD l.length d = x := by
  rw [List.getD_eq_getElem?_getD, List.getElem?_concat_length, Option.getD_some]

section
variable {w : Nat} (next : List (BitVec w) → BitVec w)

/-- The word that is appended last is the recurrence's value on all the words before it. -/
theorem extendSchedule_succ (n : Nat) (l : List (BitVec w)) :
    extendSchedule next (n + 1) l = next (extendSchedule next n l) :: extendSchedule next n l := by
  induction n generalizing l with
  | zero => rfl
  | succ n ih => exact ih (next l :: l)

@[simp] theorem scheduleOf_zero (x : List (BitVec w)) : scheduleOf next 0 x = x :=
  List.reverse_reverse x

theorem scheduleOf_succ (n : Nat) (x : List (BitVec w)) :
    scheduleOf next (n + 1) x = scheduleOf next n x ++ [next (scheduleOf next n x).reverse] := by
  rw [scheduleOf, extendSchedule_succ, List.reverse_cons, scheduleOf, List.reverse_reverse]

@[simp] theorem scheduleOf_length (n : Nat) (x : List (BitVec w)) :
    (scheduleOf next n x).length = x.length + n := by
  induction n with
  | zero => rw [scheduleOf_zero, Nat.add_zero]
  | succ n ih => rw [scheduleOf_succ, List.length_append, ih, List.length_singleton, Nat.add_assoc]

/-- A schedule starts with the words it is made from. -/
theorem scheduleOf_getD_of_lt (n : Nat) (x : List (BitVec w)) {t : Nat} (h : t < x.length) :
    (scheduleOf next n x).getD t 0 = x.getD t 0 := by
  induction n with
  | zero => rw [scheduleOf_zero]
  | succ n ih =>
    have hOld : t < (scheduleOf next n x).length := by
      rw [scheduleOf_length]
      omega
    rw [scheduleOf_succ, getD_append_of_lt _ _ _ hOld, ih]

/-- Every further word is the recurrence's value on the words before it, newest first. -/
theorem scheduleOf_getD_of_le {n : Nat} {x : List (BitVec w)} {t : Nat} (hLe : x.length ≤ t) (hLt : t < x.length + n) :
    (scheduleOf next n x).getD t 0 = next ((scheduleOf next n x).take t).reverse := by
  induction n with
  | zero => omega
  | succ n ih =>
    have hLength := scheduleOf_length next n x
    rw [scheduleOf_succ]
    rcases Nat.lt_or_ge t (x.length + n) with hOld | hNew
    · rw [getD_append_of_lt _ _ _ (by omega), List.take_append_of_le_length (by omega), ih hOld]
    · have hLast : t = (scheduleOf next n x).length := by omega
      rw [hLast, getD_concat_length, List.take_left]

/-- The k-th word back from word t of a schedule is word t - k. -/
theorem back_reverse_take (l : List (BitVec w)) {t k : Nat} (hk : 0 < k) (hkt : k ≤ t) (ht : t ≤ l.length) :
    back (l.take t).reverse k = l.getD (t - k) 0 := by
  have hLength : (l.take t).length = t := List.length_take_of_le ht
  have hIndex : t - 1 - (k - 1) = t - k := by omega
  rw [back, List.getD_eq_getElem?_getD, List.getD_eq_getElem?_getD, List.getElem?_reverse (by omega), hLength, hIndex,
    List.getElem?_take_of_lt (by omega)]

end

/-! ## The SHA family's schedules (R142, R143, R144) -/

/-- What the schedules of the SHA family share: they have `16 + n` words, the block's sixteen first, and any later word
is the recurrence's value on words that are read by their distance from it. -/
theorem scheduleOf_wordsBE {w : Nat} (next : List (BitVec w) → BitVec w) (n : Nat) (b : List Byte)
    (W : Nat → BitVec w) (hW : ∀ t, W t = (scheduleOf next n (wordsBE w b)).getD t 0) :
    (scheduleOf next n (wordsBE w b)).length = 16 + n
      ∧ (∀ t < 16, W t = beWord w ((b.drop (w / 8 * t)).take (w / 8)))
      ∧ ∀ t, 16 ≤ t → t < 16 + n → ∃ l, W t = next l ∧ ∀ k, 0 < k → k ≤ 16 → back l k = W (t - k) := by
  have hLength : (scheduleOf next n (wordsBE w b)).length = 16 + n := by rw [scheduleOf_length, wordsBE_length]
  refine ⟨hLength, fun t ht => ?_, fun t hLe hLt =>
    ⟨((scheduleOf next n (wordsBE w b)).take t).reverse, ?_, fun k hk hk16 => ?_⟩⟩
  · rw [hW, scheduleOf_getD_of_lt next n _ (by rwa [wordsBE_length]), wordsBE_getD w b ht]
  · rw [hW, scheduleOf_getD_of_le next (by rwa [wordsBE_length]) (by rwa [wordsBE_length])]
  · rw [hW, back_reverse_take _ hk (by omega) (by omega)]

/-- Settles O52: MD5's words by `expandMd5_getD`, the SHA family's by `scheduleOf_wordsBE` and each algorithm's
recurrence read at the distances it names. -/
theorem scheduleRecurrences : Obligations.ScheduleRecurrences := by
  intro b
  refine ⟨fun W hW => ⟨expandMd5_length b, fun i hi => ⟨md5Index i, ?_, ?_⟩⟩, fun W hW => ?_, fun W hW => ?_,
    fun W hW => ?_⟩
  · rw [hW, expandMd5_getD b hi]
  · simp only [md5Index, Nat.lt_succ_iff]
  · obtain ⟨hLength, hFirst, hNext⟩ := scheduleOf_wordsBE nextSha1 64 b W hW
    refine ⟨hLength, hFirst, fun t hLe hLt => ?_⟩
    obtain ⟨l, hWord, hBack⟩ := hNext t hLe hLt
    simp (disch := decide) only [hWord, nextSha1, hBack]
  · obtain ⟨hLength, hFirst, hNext⟩ := scheduleOf_wordsBE nextSha256 48 b W hW
    refine ⟨hLength, hFirst, fun t hLe hLt => ?_⟩
    obtain ⟨l, hWord, hBack⟩ := hNext t hLe hLt
    simp (disch := decide) only [hWord, nextSha256, smallSigma1_256, smallSigma0_256, hBack]
  · obtain ⟨hLength, hFirst, hNext⟩ := scheduleOf_wordsBE nextSha512 64 b W hW
    refine ⟨hLength, hFirst, fun t hLe hLt => ?_⟩
    obtain ⟨l, hWord, hBack⟩ := hNext t hLe hLt
    simp (disch := decide) only [hWord, nextSha512, smallSigma1_512, smallSigma0_512, hBack]

end Sys2Proof.Machine
end

section
/-!
PROOFS of 42_md5_engine.md: MD5's rounds one by one (R160), its round functions (R161) and the final additions.
-/
namespace Sys2Proof.Machine

/-- One more round of a fold over the round indices is that round on the result of the rounds before it. -/
theorem foldl_range_succ {α : Type} (round : α → Nat → α) (v : α) (n : Nat) :
    (List.range (n + 1)).foldl round v = round ((List.range n).foldl round v) n := by
  rw [List.range_succ, List.foldl_append, List.foldl_cons, List.foldl_nil]

/-- Four 32-bit words fill the registers H0 to H3, zero-extended, and leave the others zero. -/
theorem chainOfWords_four (w x y z : Word) :
    chainOfWords [w, x, y, z] =
      ⟨w.setWidth 64, x.setWidth 64, y.setWidth 64, z.setWidth 64, 0, 0, 0, 0⟩ := rfl

/-- R161 with each group of 16 rounds named by its last round. -/
theorem md5F_eq (i : Nat) (b c d : Word) :
    md5F i b c d =
      if i ≤ 15 then (b &&& c) ||| (~~~b &&& d)
      else if i ≤ 31 then (b &&& d) ||| (c &&& ~~~d)
      else if i ≤ 47 then b ^^^ c ^^^ d
      else c ^^^ (b ||| ~~~d) := by
  simp only [md5F, Nat.lt_succ_iff]

theorem md5Rounds_succ (n : Nat) (hv : Chain) (b : List Byte) :
    md5Rounds (n + 1) hv b = md5Round (md5Rounds n hv b) n ((expandMd5 b).getD n 0) :=
  foldl_range_succ _ _ n

/-- Settles O53: a round more is `md5Rounds_succ` with the round's function by `md5F_eq`, and the four sums are the state
words by `chainOfWords_four`. -/
theorem md5Compression : Obligations.Md5Compression := by
  intro hv b
  refine ⟨rfl, fun i _ v hv' f hf => ?_, fun v hv' => ?_⟩
  · rw [md5Rounds_succ, ← hv', md5Round, md5F_eq, ← hf]
  · rw [compress, compressMd5, ← hv', chainOfWords_four]

end Sys2Proof.Machine
end

section
/-!
PROOFS of 43_sha1_engine.md: SHA-1's rounds one by one (R180), their function and constant by phase of 20 rounds (R181)
and the final additions.
-/
namespace Sys2Proof.Machine

/-- Five 32-bit words fill the registers H0 to H4, zero-extended, and leave the others zero. -/
theorem chainOfWords_five (v w x y z : Word) :
    chainOfWords [v, w, x, y, z] =
      ⟨v.setWidth 64, w.setWidth 64, x.setWidth 64, y.setWidth 64, z.setWidth 64, 0, 0, 0⟩ := rfl

/-- R181's function, written out, with each phase of 20 rounds named by its last round. -/
theorem sha1F_eq (t : Nat) (b c d : Word) :
    sha1F t b c d =
      if t ≤ 19 then (b &&& c) ^^^ (~~~b &&& d)
      else if t ≤ 39 then b ^^^ c ^^^ d
      else if t ≤ 59 then (b &&& c) ^^^ (b &&& d) ^^^ (c &&& d)
      else b ^^^ c ^^^ d := by
  simp only [sha1F, ch, maj, Nat.lt_succ_iff]

/-- A round in the phase of 20 rounds that begins with round `20 * p` has the ROM's constant `p`. -/
theorem sha1K_of_phase {t : Nat} (p : Nat) (hFirst : p * 20 ≤ t) (hLast : t < (p + 1) * 20) :
    sha1K t = romSha1K.getD p 0 := by
  rw [sha1K, Nat.div_eq_of_lt_le hFirst hLast]

/-- R181's constants, with each phase of 20 rounds named by its last round. -/
theorem sha1K_eq {t : Nat} (ht : t < 80) :
    sha1K t =
      if t ≤ 19 then 0x5A827999
      else if t ≤ 39 then 0x6ED9EBA1
      else if t ≤ 59 then 0x8F1BBCDC
      else 0xCA62C1D6 := by
  split
  · exact sha1K_of_phase 0 (by omega) (by omega)
  · split
    · exact sha1K_of_phase 1 (by omega) (by omega)
    · split
      · exact sha1K_of_phase 2 (by omega) (by omega)
      · exact sha1K_of_phase 3 (by omega) (by omega)

theorem sha1Rounds_succ (n : Nat) (hv : Chain) (b : List Byte) :
    sha1Rounds (n + 1) hv b = sha1Round (sha1Rounds n hv b) n ((expandSha1 b).getD n 0) :=
  foldl_range_succ _ _ n

/-- Settles O54: a round more is `sha1Rounds_succ` with the phase's function by `sha1F_eq` and its constant by
`sha1K_eq`, and the five sums are the state words by `chainOfWords_five`. -/
theorem sha1Compression : Obligations.Sha1Compression := by
  intro hv b
  refine ⟨rfl, fun t ht v hv' f k hf hk => ?_, fun v hv' => ?_⟩
  · rw [sha1Rounds_succ, ← hv', sha1Round, sha1F_eq, sha1K_eq ht, ← hf, ← hk]
  · rw [compress, compressSha1, ← hv', chainOfWords_five]

end Sys2Proof.Machine
end

section
/-!
PROOFS of 44_sha256_engine.md: the SHA-2 round by its T1 and T2 (R200, R220), SHA-256's rounds one by one with their
functions (R201) and the final additions.
-/
namespace Sys2Proof.Machine

/-- Eight 32-bit words fill all the registers, zero-extended. -/
theorem chainOfWords_eight (a b c d e f g h : Word) :
    chainOfWords [a, b, c, d, e, f, g, h] =
      ⟨a.setWidth 64, b.setWidth 64, c.setWidth 64, d.setWidth 64,
        e.setWidth 64, f.setWidth 64, g.setWidth 64, h.setWidth 64⟩ := rfl

/-- The round of every SHA-2 algorithm by its T1 and T2, with Ch and Maj written out: a becomes their sum, T1 is added to
d on its way to e, and the other variables move one place on. -/
theorem sha2Round_eq {w : Nat} {s0 s1 k x t1 t2 : BitVec w} {v : Sha2Vars w}
    (h1 : t1 = v.h + s1 + ((v.e &&& v.f) ^^^ (~~~v.e &&& v.g)) + k + x)
    (h2 : t2 = s0 + ((v.a &&& v.b) ^^^ (v.a &&& v.c) ^^^ (v.b &&& v.c))) :
    sha2Round s0 s1 v k x = ⟨t1 + t2, v.a, v.b, v.c, v.d + t1, v.e, v.f, v.g⟩ := by
  rw [h1, h2, sha2Round, ch, maj]

theorem sha256Rounds_succ (n : Nat) (hv : Chain) (b : List Byte) :
    sha256Rounds (n + 1) hv b =
      sha2Round (bigSigma0_256 (sha256Rounds n hv b).a) (bigSigma1_256 (sha256Rounds n hv b).e) (sha256Rounds n hv b)
        (romSha256K.getD n 0) ((expandSha256 b).getD n 0) :=
  foldl_range_succ _ _ n

/-- Settles O55: a round more is `sha256Rounds_succ`, which `sha2Round_eq` gives by its T1 and T2, and the eight sums are
the state words by `chainOfWords_eight`. -/
theorem sha256Compression : Obligations.Sha256Compression := by
  intro hv b
  refine ⟨rfl, fun t _ v hv' t1 t2 h1 h2 => ?_, fun v hv' => ?_⟩
  · rw [sha256Rounds_succ, ← hv', bigSigma0_256, bigSigma1_256, sha2Round_eq h1 h2]
  · rw [compress, compressSha256, ← hv', chainOfWords_eight]

end Sys2Proof.Machine
end

section
/-!
PROOFS of 45_sha512_core.md: the 64-bit core's rounds one by one (R220) with their functions (R221), the final additions,
and SHA-384's output as the first part of SHA-512's (R222).
-/
namespace Sys2Proof.Machine

/-- Eight 64-bit words fill all the registers. -/
theorem chainOfDWords_eight (a b c d e f g h : DWord) :
    chainOfDWords [a, b, c, d, e, f, g, h] = ⟨a, b, c, d, e, f, g, h⟩ := rfl

theorem sha512Rounds_succ (n : Nat) (hv : Chain) (b : List Byte) :
    sha512Rounds (n + 1) hv b =
      sha2Round (bigSigma0_512 (sha512Rounds n hv b).a) (bigSigma1_512 (sha512Rounds n hv b).e) (sha512Rounds n hv b)
        (romSha512K.getD n 0) ((expandSha512 b).getD n 0) :=
  foldl_range_succ _ _ n

/-- SHA-512's serialisation is SHA-384's followed by the state words H6 and H7. -/
theorem serialize_sha512_eq_append (hv : Chain) :
    serialize .sha512 hv = serialize .sha384 hv ++ (toBE 8 hv.h6.toNat ++ toBE 8 hv.h7.toNat) := by
  simp only [serialize, List.range_succ (n := 7), List.range_succ (n := 6), List.flatMap_append, List.flatMap_singleton,
    List.append_assoc, chainGet]

/-- R222: SHA-384's output, 48 bytes long, is what SHA-512's serialisation begins with. -/
theorem serialize_sha384_eq_take (hv : Chain) : serialize .sha384 hv = (serialize .sha512 hv).take 48 := by
  have hLength : (serialize .sha384 hv).length = 48 := serialize_length .sha384 hv
  rw [serialize_sha512_eq_append, List.take_left' hLength]

/-- Settles O56: a round more is `sha512Rounds_succ`, which `sha2Round_eq` gives by its T1 and T2, the eight sums are the
state words by `chainOfDWords_eight`, and SHA-384's output is `serialize_sha384_eq_take`. -/
theorem sha512Compression : Obligations.Sha512Compression := by
  intro hv b
  refine ⟨rfl, fun t _ v hv' t1 t2 h1 h2 => ?_, fun v hv' => ?_, rfl, serialize_sha384_eq_take hv⟩
  · rw [sha512Rounds_succ, ← hv', bigSigma0_512, bigSigma1_512, sha2Round_eq h1 h2]
  · rw [compress, compressSha512, ← hv', chainOfDWords_eight]

end Sys2Proof.Machine
end

section
/-!
PROOFS of 46_round_constant_rom.md: what a read of the ROM answers (R247), the K tables as cube roots of primes (R244, R246),
and the initial vectors (R245).
-/
namespace Sys2Proof.Machine

/-! ## What a read of the ROM answers (R247) -/

/-- No register of the ROM is one that R72 leaves open, so a running command changes nothing of what a read answers. -/
theorem readAnswers_rom {s : State} {base size off : Nat} {reg : BusReg} (hRow : ⟨base, size, reg⟩ ∈ busMap)
    (hRom : freeWhileBusy reg = false) (hOff : off < size) (h4 : off % 4 = 0) :
    ReadAnswers s (base + off) (regValue s reg off) :=
  readAnswers_of_row hRow hOff h4 fun _ => hRom

/-- Entry i of a table of 32-bit words lies 4i bytes from the table's base. -/
theorem regValue_romWord (s : State) (i : Nat) :
    regValue s .romMd5T (4 * i) = romMd5T.getD i 0 ∧ regValue s .romSha256K (4 * i) = romSha256K.getD i 0
      ∧ regValue s .romSha1K (4 * i) = romSha1K.getD i 0
      ∧ regValue s .romMd5S (4 * i) = BitVec.ofNat 32 (romMd5S.getD i 0) := by
  have hEntry : 4 * i / 4 = i := by omega
  simp only [regValue, hEntry, and_self]

/-- R65: the low word of K512[i] lies 8i bytes from the table's base, the high word 4 bytes after it. -/
theorem regValue_romSha512K (s : State) (i : Nat) :
    regValue s .romSha512K (8 * i) = (romSha512K.getD i 0).extractLsb' 0 32
      ∧ regValue s .romSha512K (8 * i + 4) = (romSha512K.getD i 0).extractLsb' 32 32 := by
  have hLow : 8 * i / 8 = i ∧ 8 * i % 8 = 0 := by omega
  have hHigh : (8 * i + 4) / 8 = i ∧ (8 * i + 4) % 8 = 4 := by omega
  simp only [regValue, hLow, hHigh, and_self]

theorem readAnswers_romSha512K_high (s : State) {i : Nat} (hi : i < 80) :
    ReadAnswers s (0x604 + 8 * i) ((romSha512K.getD i 0).extractLsb' 32 32) := by
  have hOffset : 0x604 + 8 * i = 0x600 + (8 * i + 4) := by omega
  rw [← (regValue_romSha512K s i).2, hOffset]
  exact readAnswers_rom (size := 0x280) (by decide) rfl (by omega) (by omega)

/-! ## The K tables as cube roots (R244, R246) -/

/-- R246: SHA-256's K[t] is the upper half of SHA-512's. -/
theorem romSha512K_high : ∀ t < 64, (romSha512K.getD t 0).extractLsb' 32 32 = romSha256K.getD t 0 := by decide

/-- The primes are below 8 ^ 3, so the whole part of a cube root is below 8. -/
theorem romSha512K_isCubeRoot :
    ∀ t < 80, ∃ c < 8, IsCubeRoot (c * 2 ^ 64 + (romSha512K.getD t 0).toNat) (primes.getD t 0) 64 := by
  decide +kernel

/-- A cube root to `w + v` bits after the point, cut after `w` of them, is the cube root to `w` bits. -/
theorem isCubeRoot_div_two_pow {r p w v : Nat} (h : IsCubeRoot r p (w + v)) : IsCubeRoot (r / 2 ^ v) p w := by
  obtain ⟨hLow, hHigh⟩ := h
  have hScale : p * (2 ^ (w + v)) ^ 3 = p * (2 ^ w) ^ 3 * (2 ^ v) ^ 3 := by
    rw [Nat.pow_add, Nat.mul_pow, Nat.mul_assoc]
  have hPos : 0 < 2 ^ v := Nat.two_pow_pos v
  have hCut : r / 2 ^ v * 2 ^ v ≤ r := Nat.div_mul_le_self r (2 ^ v)
  have hNext : r + 1 ≤ (r / 2 ^ v + 1) * 2 ^ v := Nat.lt_mul_of_div_lt (Nat.lt_succ_self _) hPos
  rw [hScale] at hLow hHigh
  constructor
  · refine Nat.le_of_mul_le_mul_right ?_ (Nat.pow_pos (n := 3) hPos)
    calc (r / 2 ^ v) ^ 3 * (2 ^ v) ^ 3 = (r / 2 ^ v * 2 ^ v) ^ 3 := (Nat.mul_pow _ _ 3).symm
      _ ≤ r ^ 3 := Nat.pow_le_pow_left hCut 3
      _ ≤ p * (2 ^ w) ^ 3 * (2 ^ v) ^ 3 := hLow
  · refine Nat.lt_of_mul_lt_mul_right (a := (2 ^ v) ^ 3) ?_
    calc p * (2 ^ w) ^ 3 * (2 ^ v) ^ 3 < (r + 1) ^ 3 := hHigh
      _ ≤ ((r / 2 ^ v + 1) * 2 ^ v) ^ 3 := Nat.pow_le_pow_left hNext 3
      _ = (r / 2 ^ v + 1) ^ 3 * (2 ^ v) ^ 3 := Nat.mul_pow _ _ 3

/-- The upper half of K512[t] is the cube root cut after 32 bits. -/
theorem romSha256K_isCubeRoot {t : Nat} (ht : t < 64) :
    ∃ c, IsCubeRoot (c * 2 ^ 32 + (romSha256K.getD t 0).toNat) (primes.getD t 0) 32 := by
  obtain ⟨c, -, hRoot⟩ := romSha512K_isCubeRoot t (by omega)
  have hCut : (c * 2 ^ 64 + (romSha512K.getD t 0).toNat) / 2 ^ 32 = c * 2 ^ 32 + (romSha256K.getD t 0).toNat := by
    rw [← romSha512K_high t ht, BitVec.extractLsb'_toNat, Nat.shiftRight_eq_div_pow]
    omega
  exact ⟨c, hCut ▸ isCubeRoot_div_two_pow (v := 32) hRoot⟩

/-- Settles O18: the answers row by row of the map, the two K tables by one table of cube roots cut at 64 and at 32 bits,
and the small tables by comparison. -/
theorem romReads : Obligations.RomReads := by
  intro s
  refine ⟨fun i hi => ?_, fun i hi => ?_, fun i hi => ?_, fun i => readAnswers_romSha512K_high s, fun i hi => ?_,
    fun i hi => ?_, fun i hi => ?_, rfl, rfl, by decide, fun t => romSha256K_isCubeRoot, fun t ht => ?_, rfl, rfl, rfl⟩
  · obtain ⟨hEntry, -⟩ := regValue_romWord s i
    rw [← hEntry]
    exact readAnswers_rom (size := 0x100) (by decide) rfl (by omega) (by omega)
  · obtain ⟨-, hEntry, -⟩ := regValue_romWord s i
    rw [← hEntry]
    exact readAnswers_rom (size := 0x100) (by decide) rfl (by omega) (by omega)
  · rw [← (regValue_romSha512K s i).1]
    exact readAnswers_rom (size := 0x280) (by decide) rfl (by omega) (by omega)
  · obtain ⟨-, -, hEntry, -⟩ := regValue_romWord s i
    rw [← hEntry]
    exact readAnswers_rom (size := 0x010) (by decide) rfl (by omega) (by omega)
  · obtain ⟨-, -, -, hEntry⟩ := regValue_romWord s i
    rw [← hEntry]
    exact readAnswers_rom (size := 0x100) (by decide) rfl (by omega) (by omega)
  · rw [← romSha512K_high i hi]
    exact readAnswers_romSha512K_high s (by omega)
  · obtain ⟨c, -, hRoot⟩ := romSha512K_isCubeRoot t ht
    exact ⟨c, hRoot⟩

/-! ## The initial vectors (R245) -/

/-- Settles O51: each vector is its algorithm's state words, zero-extended and followed by zeros. -/
theorem initialVectors : Obligations.InitialVectors :=
  ⟨chainOfWords_four _ _ _ _, chainOfWords_five _ _ _ _ _, chainOfWords_eight _ _ _ _ _ _ _ _,
    chainOfDWords_eight _ _ _ _ _ _ _ _, chainOfDWords_eight _ _ _ _ _ _ _ _⟩

end Sys2Proof.Machine
end

section
/-!
PROOFS of 47_digest_commands.md: the engine's step (R260), what NOP, INIT, UPDATE, FINAL and CLEAR do (R261 to R267), that a
session reads its commands and BUF alone (R268), and a digest session as a function of the absorbed message (R269).
-/
namespace Sys2Proof.Machine

/-! ## The engine's step (R260) -/

theorem engineStep_of_instr {s : State} {i : Instr} (h : decode s.pend = .instr i) : engineStep s = exec i s := by
  simp [engineStep, h]

theorem engineStep_of_reject {s : State} {e : CmdError} (h : decode s.pend = .reject e) :
    engineStep s = .next (s.raise e) := by
  simp [engineStep, h, fail]

/-- Settles O5: the engine's step is due, and it goes by what the word in PEND decodes to. -/
theorem stepRunsPendingCommand : Obligations.StepRunsPendingCommand := by
  intro s hBusy hReleased hOver
  rw [step_due ((engineDue_iff s).2 ⟨hBusy, hReleased, hOver⟩)]
  exact ⟨fun _ => engineStep_of_instr, fun _ => engineStep_of_reject⟩

/-! ## What a command does, by phase and operand -/

/-- R93: the code that the spec gives an algorithm names it. -/
theorem algOfCode_algCode (a : Alg) : algOfCode ((algCode a).setWidth 4) = some a := by
  cases a <;> rfl

theorem exec_update_of_idle {s : State} (h : s.phase = .idle) : exec .update s = .next (s.raise .sequence) := by
  simp [exec, execUpdate, h, fail]

theorem exec_update_of_message {s : State} (h : s.phase = .hash ∨ s.phase = .hmsg) :
    exec .update s = .next s.absorbBlock.finish := by
  rcases h with h | h <;> simp [exec, execUpdate, h, succeed]

theorem exec_update_of_key {s : State} (h : s.phase = .hkey) : exec .update s = .next s.absorbKeyBlock.finish := by
  simp [exec, execUpdate, h, succeed]

theorem exec_final_of_idle {s : State} (h : s.phase = .idle) (n : BitVec 8) :
    exec (.final n) s = .next (s.raise .sequence) := by
  simp [exec, execFinal, h, fail]

theorem exec_final_of_long {s : State} (h : s.phase ≠ .idle) {n : BitVec 8} (hn : blockSize s.alg ≤ n.toNat) :
    exec (.final n) s = .next (s.raise .length) := by
  simp [exec, execFinal, h, hn, fail]

theorem exec_final_of_admitted {s : State} (h : s.phase ≠ .idle) {n : BitVec 8} (hn : n.toNat < blockSize s.alg) :
    exec (.final n) s = .next (s.finalWrites n.toNat).finish := by
  simp [exec, execFinal, h, Nat.not_le.2 hn, succeed]

theorem State.finalWrites_of_hash {s : State} (h : s.phase = .hash) (n : Nat) : s.finalWrites n = s.endDigest n := by
  simp [State.finalWrites, h]

theorem State.finalWrites_of_hkey {s : State} (h : s.phase = .hkey) (n : Nat) : s.finalWrites n = s.endKey n := by
  simp [State.finalWrites, h]

theorem State.finalWrites_of_hmsg {s : State} (h : s.phase = .hmsg) (n : Nat) : s.finalWrites n = s.endHmac n := by
  simp [State.finalWrites, h]

theorem exec_final_of_hash {s : State} (h : s.phase = .hash) {n : BitVec 8} (hn : n.toNat < blockSize s.alg) :
    exec (.final n) s = .next (s.endDigest n.toNat).finish := by
  rw [exec_final_of_admitted (by simp [h]) hn, State.finalWrites_of_hash h]

/-- Settles O31: SEQUENCE in IDLE, and in a session LENGTH for a tail of a block or more. -/
theorem updateAndFinalErrors : Obligations.UpdateAndFinalErrors := by
  intro s n
  exact ⟨fun hIdle => ⟨exec_update_of_idle hIdle, exec_final_of_idle hIdle n⟩,
    fun hSession hLong => exec_final_of_long hSession hLong⟩

/-! ## NOP, INIT and HINIT -/

/-- R95: of the words with the opcode of a command without operands, only the command's own (`w`) decodes to one. -/
theorem decode_reservedField_of_no_operand {v w : Word} (hw : w.toNat ∈ [0, 3, 5, 7]) (hOp : v.toNat % 16 = w.toNat)
    (hOther : v ≠ w) : decode v = .reject .reservedField := by
  obtain ⟨-, -, hNoOperand, -⟩ := reservedSpaceRejected
  have hRow := hNoOperand v (hOp ▸ hw)
  have hRest : v.toNat ≠ w.toNat := fun hSame => hOther (BitVec.eq_of_toNat_eq hSame)
  rwa [if_neg (by omega)] at hRow

/-- Settles O26: its word by the encoder, its other words by R95. -/
theorem nopCompletes : Obligations.NopCompletes :=
  ⟨decodeOfEncode .nop, fun _ => decode_reservedField_of_no_operand (w := 0) (by decide), fun _ => rfl⟩

/-- Settles O27: the code names its algorithm, and the command is `startSession` in its phase. -/
theorem initAndHinitStartSession : Obligations.InitAndHinitStartSession :=
  fun s a => ⟨exec_init_of_some (algOfCode_algCode a) s, exec_hinit_of_some (algOfCode_algCode a) s⟩

/-! ## UPDATE of a message -/

/-- R23: LEN counts modulo 2^128. -/
theorem State.addLen_len_eq (s : State) (n : Nat) :
    (s.addLen n).len = BitVec.ofNat 128 ((s.len.toNat + 8 * n) % 2 ^ 128) := by
  apply BitVec.eq_of_toNat_eq
  rw [State.addLen_len, BitVec.toNat_add, BitVec.toNat_ofNat, BitVec.toNat_ofNat]
  omega

/-- LEN after `m` bytes and `n` more. -/
theorem State.addLen_len_of_eq {s : State} {m : Nat} (h : s.len = BitVec.ofNat 128 (8 * m)) (n : Nat) :
    (s.addLen n).len = BitVec.ofNat 128 (8 * (m + n)) := by
  rw [State.addLen_len, h, Nat.mul_add, BitVec.ofNat_add]

/-- R263, R313: what UPDATE writes of a message. -/
theorem State.absorbBlock_eq (s : State) :
    s.absorbBlock = { s with
      h := compress s.alg s.h (s.bufBytes (blockSize s.alg)),
      len := BitVec.ofNat 128 ((s.len.toNat + 8 * blockSize s.alg) % 2 ^ 128) } := by
  rw [← State.addLen_len_eq]
  rfl

/-- Settles O29: `absorbBlock` and the command's end. -/
theorem updateAbsorbsBlock : Obligations.UpdateAbsorbsBlock := by
  intro s hPhase
  rw [exec_update_of_message hPhase, State.absorbBlock_eq]
  rfl

/-! ## FINAL of a message -/

/-- R37: what `setDigest` writes is the digest, where it is as long as the algorithm's. -/
theorem digestIs_setDigest (s : State) {a : Alg} {d : List Byte} (hd : d.length = outputLength a) :
    DigestIs (s.setDigest a d) d := by
  constructor
  · have hRead := State.bytesAt_storeBytes s digestBase (fit 64 d)
    rw [fit_length] at hRead
    exact hRead
  · rw [hd]
    cases a <;> rfl

theorem DigestIs.congr {s t : State} {d : List Byte} (h : DigestIs s d) (hMem : t.mem = s.mem)
    (hResets : t.env.resets = s.env.resets) (hDlen : t.dlen = s.dlen) : DigestIs t d := by
  obtain ⟨hBytes, hLength⟩ := h
  exact ⟨(State.bytesAt_congr hMem hResets digestBase 64).trans hBytes, hDlen ▸ hLength⟩

/-- Only DIGEST's bytes are written with a digest. -/
theorem State.byteAt_setDigest_outside (s : State) (alg : Alg) (d : List Byte) {a : Nat}
    (h : a < 0x080 ∨ 0x0C0 ≤ a) : (s.setDigest alg d).byteAt a = s.byteAt a :=
  State.byteAt_storeBytes_outside s (by simpa [digestBase] using h)

/-- DIGEST after a digest session's end. -/
theorem State.endDigest_digestIs (s : State) (n : Nat) :
    DigestIs (s.endDigest n) (serialize s.alg (finishHash s.alg s.h s.len.toNat (s.bufBytes n))) :=
  (digestIs_setDigest s (serialize_length _ _)).congr rfl rfl rfl

/-- R265: what FINAL writes at a digest session's end. -/
theorem State.endDigest_frame (s : State) (n : Nat) :
    ∃ m, s.endDigest n = { s with
      h := finishHash s.alg s.h s.len.toNat (s.bufBytes n), len := (s.addLen n).len,
      dlen := BitVec.ofNat 7 (outputLength s.alg), phase := .idle, mem := m } := ⟨_, rfl⟩

theorem State.byteAt_endDigest_outside (s : State) (n : Nat) {a : Nat} (h : a < 0x080 ∨ 0x0C0 ≤ a) :
    (s.endDigest n).byteAt a = s.byteAt a :=
  (State.byteAt_congr rfl rfl a).trans (s.byteAt_setDigest_outside s.alg _ h)

/-- Settles O32: the registers by `endDigest_frame`, the bytes in and outside DIGEST by its two laws. -/
theorem finalEndsDigest : Obligations.FinalEndsDigest := by
  intro s n hPhase hn
  have hExec := exec_final_of_hash hPhase hn
  have hDigest := s.endDigest_digestIs n.toNat
  have hOutside := fun a => s.byteAt_endDigest_outside n.toNat (a := a)
  obtain ⟨m, hWrites⟩ := s.endDigest_frame n.toNat
  rw [hWrites] at hExec hDigest hOutside
  refine ⟨_, hExec, rfl, s.addLen_len_eq n.toNat, hDigest, ?_, rfl, rfl, rfl, hOutside, rfl⟩
  exact hDigest.2.trans (serialize_length _ _)

/-! ## CLEAR -/

/-- A byte after a run of zeros is written. -/
theorem State.byteAt_storeBytes_zeros (s : State) (base n a : Nat) :
    (s.storeBytes base (zeros n)).byteAt a = if base ≤ a ∧ a < base + n then 0 else s.byteAt a := by
  split
  · next h =>
    obtain ⟨k, rfl⟩ := Nat.exists_eq_add_of_le h.1
    have hk : k < (zeros n).length := by rw [zeros_length]; omega
    rw [State.byteAt_storeBytes_inside s hk]
    exact List.getElem_replicate _
  · exact State.byteAt_storeBytes_outside s (by rw [zeros_length]; omega)

theorem State.byteAt_zeroBuffers (s : State) {a : Nat}
    (h : (0x080 ≤ a ∧ a < 0x0C0) ∨ (0x100 ≤ a ∧ a < 0x180) ∨ (0x200 ≤ a ∧ a < 0x300)) :
    s.zeroBuffers.byteAt a = 0 := by
  simp only [State.zeroBuffers, State.byteAt_storeBytes_zeros, digestBase, bufBase, hexOutBase, hexInBase]
  split_ifs
  · rfl
  · rfl
  · rfl
  · rfl
  · omega

theorem State.zeroBuffers_frame (s : State) : ∃ m, s.zeroBuffers = { s with mem := m } := by
  simp only [State.zeroBuffers, State.storeBytes]
  exact ⟨_, rfl⟩

/-- Settles O35: its word by the encoder, its other words by R95, the buffers by `zeroBuffers`. -/
theorem clearZeroesEverything : Obligations.ClearZeroesEverything := by
  refine ⟨decodeOfEncode .clear, fun _ => decode_reservedField_of_no_operand (w := 7) (by decide), fun s => ?_⟩
  have hZero := fun a => s.byteAt_zeroBuffers (a := a)
  obtain ⟨m, hBuffers⟩ := s.zeroBuffers_frame
  rw [hBuffers] at hZero
  rw [exec, execClear, hBuffers]
  exact ⟨_, rfl, rfl, hZero⟩

/-! ## A session as a function of the absorbed message (R269) -/

/-- A block of BUF extends the absorbed blocks. -/
theorem State.absorbBlock_h {s : State} {m : List Byte} (hBlocks : m.length % blockSize s.alg = 0)
    (hChain : s.h = chainOf s.alg m) : s.absorbBlock.h = chainOf s.alg (m ++ s.bufBytes (blockSize s.alg)) := by
  rw [chainOf_append_block s.alg m _ hBlocks (State.bufBytes_length s _), ← hChain]
  rfl

/-- Whole blocks and a block of BUF are whole blocks. -/
theorem State.append_block_mod (s : State) {m : List Byte} {bs : Nat} (h : m.length % bs = 0) :
    (m ++ s.bufBytes bs).length % bs = 0 := by
  rw [List.length_append, State.bufBytes_length, Nat.add_mod_right, h]

theorem chainOf_nil (a : Alg) : chainOf a [] = iv a := by
  rw [chainOf, List.length_nil, Nat.zero_div, absorb]

theorem digestSession_startSession (s : State) (a : Alg) : DigestSession (s.startSession a .hash).finish a [] where
  phase := rfl
  alg := rfl
  blocks := Nat.zero_mod _
  chain := (chainOf_nil a).symm
  len := rfl

theorem DigestSession.absorbBlock {s : State} {a : Alg} {m : List Byte} (h : DigestSession s a m) :
    DigestSession s.absorbBlock.finish a (m ++ s.bufBytes (blockSize a)) := by
  obtain ⟨hPhase, rfl, hBlocks, hChain, hLen⟩ := h
  refine ⟨hPhase, rfl, s.append_block_mod hBlocks, State.absorbBlock_h hBlocks hChain, ?_⟩
  rw [List.length_append, State.bufBytes_length]
  exact State.addLen_len_of_eq hLen _

/-- R127: finishing a message's whole blocks with its tail in BUF gives the digest of the whole. -/
theorem State.serialize_finishHash_bufBytes (s : State) (a : Alg) {m : List Byte} {n : Nat}
    (hBlocks : m.length % blockSize a = 0) (hn : n < blockSize a) :
    serialize a (finishHash a (chainOf a m) (BitVec.ofNat 128 (8 * m.length)).toNat (s.bufBytes n)) =
      digest a (m ++ s.bufBytes n) := by
  rw [BitVec.toNat_ofNat, digest_append_tail a m _ hBlocks (by rwa [State.bufBytes_length])]

/-- Settles O57: the three steps of a digest session. -/
theorem sessionComputesDigest : Obligations.SessionComputesDigest := by
  intro s a m
  refine ⟨⟨_, exec_init_of_some (algOfCode_algCode a) s, digestSession_startSession s a⟩,
    fun h => ⟨?_, fun n hn => ?_⟩⟩
  · exact ⟨_, exec_update_of_message (.inl h.phase), h.absorbBlock⟩
  · obtain ⟨hPhase, rfl, hBlocks, hChain, hLen⟩ := h
    refine ⟨_, exec_final_of_hash hPhase hn, ?_, rfl, State.addLen_len_of_eq hLen n.toNat⟩
    rw [← s.serialize_finishHash_bufBytes s.alg hBlocks hn, ← hChain, ← hLen]
    exact (s.endDigest_digestIs n.toNat).congr rfl rfl rfl

/-! ## What a session reads (R268) -/

/-- R311: what UPDATE writes of a key. -/
theorem State.absorbKeyBlock_eq (s : State) :
    s.absorbKeyBlock =
      { s.absorbBlock with k0 := if s.len = 0 then keyOfBytes (s.bufBytes (blockSize s.alg)) else s.k0 } := by
  unfold State.absorbKeyBlock
  split <;> rfl

/-- R312: what FINAL writes at the end of a key. -/
theorem State.endKey_eq (s : State) (n : Nat) :
    s.endKey n = { s with
      k0 := s.finalKey n,
      h := compress s.alg (iv s.alg) (xorRep 0x36 ((s.finalKey n).toList.take (blockSize s.alg))),
      len := BitVec.ofNat 128 (8 * blockSize s.alg), phase := .hmsg } := rfl

/-- R314: what FINAL writes at an HMAC session's end. -/
theorem State.endHmac_frame (s : State) (n : Nat) :
    ∃ m, s.endHmac n = { s with
      h := s.outerHash n, len := BitVec.ofNat 128 (8 * (blockSize s.alg + outputLength s.alg)),
      dlen := BitVec.ofNat 7 (outputLength s.alg), k0 := Vector.replicate 128 0, phase := .idle, mem := m } :=
  ⟨_, rfl⟩

/-- DIGEST after an HMAC session's end. -/
theorem State.endHmac_digestIs (s : State) (n : Nat) : DigestIs (s.endHmac n) (serialize s.alg (s.outerHash n)) :=
  (digestIs_setDigest s (serialize_length _ _)).congr rfl rfl rfl

/-- The end of a message leaves the serialised H in DIGEST, and no session. -/
theorem State.finalWrites_of_message {s : State} (h : s.phase = .hash ∨ s.phase = .hmsg) (n : Nat) :
    DigestIs (s.finalWrites n) (serialize s.alg (s.finalWrites n).h) ∧ (s.finalWrites n).phase = .idle := by
  rcases h with h | h
  · rw [State.finalWrites_of_hash h]
    exact ⟨s.endDigest_digestIs n, rfl⟩
  · rw [State.finalWrites_of_hmsg h]
    exact ⟨s.endHmac_digestIs n, rfl⟩

theorem DigestIs.unique {s t : State} {d : List Byte} (hs : DigestIs s d) (ht : DigestIs t d) :
    s.dlen = t.dlen ∧ s.digestBytes 64 = t.digestBytes 64 :=
  ⟨BitVec.eq_of_toNat_eq (hs.2.trans ht.2.symm), hs.1.trans ht.1.symm⟩

theorem State.take_bytesAt (s : State) (base : Nat) {k n : Nat} (h : k ≤ n) :
    (s.bytesAt base n).take k = s.bytesAt base k := by
  rw [State.bytesAt, ← List.map_take, List.take_range, Nat.min_eq_left h, State.bytesAt]

section
variable {s t : State} (h : SameSession s t)
include h

theorem SameSession.finish : SameSession s.finish t.finish := ⟨h.alg, h.phase, h.h, h.len, h.k0⟩

theorem SameSession.raise (e : CmdError) : SameSession (s.raise e) (t.raise e) := ⟨h.alg, rfl, h.h, h.len, rfl⟩

theorem SameSession.absorbBlock (hBuf : ∀ n ≤ 128, s.bufBytes n = t.bufBytes n) :
    SameSession s.absorbBlock t.absorbBlock := by
  simp only [State.absorbBlock_eq, ← h.alg, ← h.h, ← h.len, hBuf _ (blockSize_le _)]
  exact ⟨rfl, h.phase, rfl, rfl, h.k0⟩

theorem SameSession.absorbKeyBlock (hBuf : ∀ n ≤ 128, s.bufBytes n = t.bufBytes n) :
    SameSession s.absorbKeyBlock t.absorbKeyBlock := by
  obtain ⟨hAlg, hPhase, hH, hLen, -⟩ := h.absorbBlock hBuf
  simp only [State.absorbKeyBlock_eq]
  refine ⟨hAlg, hPhase, hH, hLen, ?_⟩
  simp only [← h.alg, ← h.len, ← h.k0, hBuf _ (blockSize_le _)]

theorem SameSession.endDigest {n : Nat} (hBuf : s.bufBytes n = t.bufBytes n) :
    SameSession (s.endDigest n) (t.endDigest n) := by
  obtain ⟨m, hs⟩ := s.endDigest_frame n
  obtain ⟨m', ht⟩ := t.endDigest_frame n
  rw [hs, ht]
  refine ⟨h.alg, rfl, ?_, ?_, h.k0⟩
  · simp only [h.alg, h.h, h.len, hBuf]
  · simp only [State.addLen_len, h.len]

theorem SameSession.endKey {n : Nat} (hBuf : s.bufBytes n = t.bufBytes n) :
    SameSession (s.endKey n) (t.endKey n) := by
  have hKey : s.finalKey n = t.finalKey n := by
    simp only [State.finalKey, h.alg, h.h, h.len, h.k0, hBuf]
  simp only [State.endKey_eq, hKey, h.alg]
  exact ⟨rfl, rfl, rfl, rfl, rfl⟩

theorem SameSession.endHmac {n : Nat} (hBuf : s.bufBytes n = t.bufBytes n) :
    SameSession (s.endHmac n) (t.endHmac n) := by
  have hOuter : s.outerHash n = t.outerHash n := by
    simp only [State.outerHash, State.keyBytes, h.alg, h.h, h.len, h.k0, hBuf]
  obtain ⟨m, hs⟩ := s.endHmac_frame n
  obtain ⟨m', ht⟩ := t.endHmac_frame n
  rw [hs, ht, hOuter, h.alg]
  exact ⟨rfl, rfl, rfl, rfl, rfl⟩

theorem SameSession.finalWrites (hPhase : s.phase ≠ .idle) {n : Nat} (hBuf : s.bufBytes n = t.bufBytes n) :
    SameSession (s.finalWrites n) (t.finalWrites n) := by
  cases hp : s.phase with
  | idle => exact absurd hp hPhase
  | hash =>
    rw [State.finalWrites_of_hash hp, State.finalWrites_of_hash (h.phase ▸ hp)]
    exact h.endDigest hBuf
  | hkey =>
    rw [State.finalWrites_of_hkey hp, State.finalWrites_of_hkey (h.phase ▸ hp)]
    exact h.endKey hBuf
  | hmsg =>
    rw [State.finalWrites_of_hmsg hp, State.finalWrites_of_hmsg (h.phase ▸ hp)]
    exact h.endHmac hBuf

/-- UPDATE carries the agreement over. -/
theorem SameSession.exec_update (hBuf : ∀ n ≤ 128, s.bufBytes n = t.bufBytes n) :
    ∃ s' t', exec .update s = .next s' ∧ exec .update t = .next t' ∧ SameSession s' t' := by
  cases hp : s.phase with
  | idle => exact ⟨_, _, exec_update_of_idle hp, exec_update_of_idle (h.phase ▸ hp), h.raise _⟩
  | hash =>
    exact ⟨_, _, exec_update_of_message (.inl hp), exec_update_of_message (.inl (h.phase ▸ hp)),
      (h.absorbBlock hBuf).finish⟩
  | hkey => exact ⟨_, _, exec_update_of_key hp, exec_update_of_key (h.phase ▸ hp), (h.absorbKeyBlock hBuf).finish⟩
  | hmsg =>
    exact ⟨_, _, exec_update_of_message (.inr hp), exec_update_of_message (.inr (h.phase ▸ hp)),
      (h.absorbBlock hBuf).finish⟩

/-- FINAL carries the agreement over, and gives the same result at a message's end. -/
theorem SameSession.exec_final (hBuf : ∀ n ≤ 128, s.bufBytes n = t.bufBytes n) (n : BitVec 8) :
    ∃ s' t', exec (.final n) s = .next s' ∧ exec (.final n) t = .next t' ∧ SameSession s' t'
      ∧ (s.phase = .hash ∨ s.phase = .hmsg → n.toNat < blockSize s.alg →
          s'.dlen = t'.dlen ∧ s'.digestBytes 64 = t'.digestBytes 64 ∧ s'.phase = .idle) := by
  by_cases hIdle : s.phase = .idle
  · refine ⟨_, _, exec_final_of_idle hIdle n, exec_final_of_idle (h.phase ▸ hIdle) n, h.raise _,
      fun hMessage => ?_⟩
    simp [hIdle] at hMessage
  have hIdle' : t.phase ≠ .idle := h.phase ▸ hIdle
  rcases Nat.lt_or_ge n.toNat (blockSize s.alg) with hn | hn
  · have hWrites := h.finalWrites hIdle (hBuf n.toNat (by have := blockSize_le s.alg; omega))
    refine ⟨_, _, exec_final_of_admitted hIdle hn, exec_final_of_admitted hIdle' (h.alg ▸ hn), hWrites.finish,
      fun hMessage _ => ?_⟩
    obtain ⟨hDigest, hEnd⟩ := State.finalWrites_of_message hMessage n.toNat
    obtain ⟨hDigest', -⟩ := State.finalWrites_of_message (h.phase ▸ hMessage) n.toNat
    rw [← h.alg, ← hWrites.h] at hDigest'
    obtain ⟨hDlen, hBytes⟩ := hDigest.unique hDigest'
    exact ⟨hDlen, hBytes, hEnd⟩
  · exact ⟨_, _, exec_final_of_long hIdle hn, exec_final_of_long hIdle' (h.alg ▸ hn), h.raise _,
      fun _ hShort => absurd hShort (Nat.not_lt.2 hn)⟩

end

theorem sameSession_startSession (s t : State) (a : Alg) (p : Phase) :
    SameSession (s.startSession a p).finish (t.startSession a p).finish := ⟨rfl, rfl, rfl, rfl, rfl⟩

/-- Settles O36: a session's start overwrites all that it reads, and its commands read nothing else but BUF. -/
theorem sessionsAreStateless : Obligations.SessionsAreStateless := by
  refine ⟨fun s1 s2 a => ?_, fun s1 s2 n h hBuf => ?_, fun s n hIdle => ?_⟩
  · have hCode := algOfCode_algCode a
    exact ⟨_, _, _, _, exec_init_of_some hCode s1, exec_init_of_some hCode s2, sameSession_startSession s1 s2 a .hash,
      exec_hinit_of_some hCode s1, exec_hinit_of_some hCode s2, sameSession_startSession s1 s2 a .hkey⟩
  · have hPrefix : ∀ n ≤ 128, s1.bufBytes n = s2.bufBytes n := fun n hn =>
      calc s1.bufBytes n = (s1.bufBytes 128).take n := (s1.take_bytesAt bufBase hn).symm
        _ = (s2.bufBytes 128).take n := by rw [hBuf]
        _ = s2.bufBytes n := s2.take_bytesAt bufBase hn
    obtain ⟨t1, t2, ht1, ht2, hUpdate⟩ := h.exec_update hPrefix
    obtain ⟨u1, u2, hu1, hu2, hFinal, hResult⟩ := h.exec_final hPrefix n
    exact ⟨t1, t2, u1, u2, ht1, ht2, hUpdate, hu1, hu2, hFinal, hResult⟩
  · exact ⟨exec_update_of_idle hIdle, exec_final_of_idle hIdle n⟩

end Sys2Proof.Machine
end

section
/-!
PROOFS of 48_hex_converter.md: the text that HEX writes (R290, R291), the bytes that UNHEX reads from a text (R292, R293),
its errors (R294), and the round trip (R295).
-/
namespace Sys2Proof.Machine

/-! ## Bytes of a stored string -/

theorem State.byteAt_storeBytes_of_getElem? (s : State) (base : Nat) {b : List Byte} {k : Nat} {x : Byte}
    (h : b[k]? = some x) : (s.storeBytes base b).byteAt (base + k) = x := by
  obtain ⟨hk, rfl⟩ := List.getElem?_eq_some_iff.1 h
  exact s.byteAt_storeBytes_inside hk

theorem State.bytesAt_getElem? (s : State) (base : Nat) {n k : Nat} (h : k < n) :
    (s.bytesAt base n)[k]? = some (s.byteAt (base + k)) := by
  simp [State.bytesAt, h]

theorem fit_getElem?_of_lt {n k : Nat} {b : List Byte} (hk : k < b.length) (hb : b.length ≤ n) :
    (fit n b)[k]? = b[k]? := by
  rw [fit_of_length_le hb, List.getElem?_append_left hk]

theorem fit_getElem?_of_le {n k : Nat} {b : List Byte} (hk : b.length ≤ k) (hn : k < n) : (fit n b)[k]? = some 0 := by
  rw [fit_of_length_le (by omega), List.getElem?_append_right hk, zeros, List.getElem?_replicate, if_pos (by omega)]

/-- Reading back a string that was stored with zeros after it. -/
theorem State.bytesAt_storeBytes_fit (s : State) (base : Nat) {n : Nat} {b : List Byte} (hb : b.length ≤ n) :
    (s.storeBytes base (fit n b)).bytesAt base b.length = b := by
  have hRead := s.bytesAt_storeBytes base (fit n b)
  rw [fit_length] at hRead
  rw [← State.take_bytesAt _ base hb, hRead, fit_of_length_le hb, List.take_left]

theorem State.bytesAt_eq_of_byteAt {s t : State} {a b n : Nat} (h : ∀ k < n, s.byteAt (a + k) = t.byteAt (b + k)) :
    s.bytesAt a n = t.bytesAt b n :=
  List.map_congr_left fun k hk => h k (List.mem_range.1 hk)

/-! ## The text of a byte string (R290, R291) -/

theorem toNat_hexChar (v : BitVec 4) :
    (hexChar v).toNat = if v.toNat ≤ 9 then 0x30 + v.toNat else 0x41 + (v.toNat - 10) := by
  revert v
  decide

theorem toNat_highNibble (b : Byte) : (b.extractLsb' 4 4).toNat = b.toNat / 16 := by
  have := b.isLt
  rw [BitVec.extractLsb'_toNat, Nat.shiftRight_eq_div_pow]
  omega

theorem toNat_lowNibble (b : Byte) : (b.extractLsb' 0 4).toNat = b.toNat % 16 := by
  rw [BitVec.extractLsb'_toNat, Nat.shiftRight_zero]

theorem flatMap_hexPair_length (l : List Byte) : (l.flatMap hexPair).length = 2 * l.length := by
  induction l with
  | nil => rfl
  | cons b l ih =>
    rw [List.flatMap_cons, List.length_append, ih, hexPair_length, List.length_cons]
    omega

/-- The characters of byte j are at 2j and 2j + 1, high nibble first. -/
theorem flatMap_hexPair_getElem? {l : List Byte} {j : Nat} {b : Byte} (h : l[j]? = some b) :
    (l.flatMap hexPair)[2 * j]? = some (hexChar (b.extractLsb' 4 4))
      ∧ (l.flatMap hexPair)[2 * j + 1]? = some (hexChar (b.extractLsb' 0 4)) := by
  induction l generalizing j with
  | nil => cases h
  | cons c l ih =>
    cases j with
    | zero =>
      cases h
      exact ⟨rfl, rfl⟩
    | succ j => exact ih h

/-- The text that HEX writes. -/
def State.digestText (s : State) : List Byte := (s.digestBytes s.dlen.toNat).flatMap hexPair

theorem exec_hex (s : State) : exec .hex s = .next (s.storeBytes hexOutBase (fit 128 s.digestText)).finish := rfl

theorem State.digestText_length (s : State) : s.digestText.length = 2 * s.dlen.toNat := by
  rw [State.digestText, flatMap_hexPair_length, State.digestBytes_length]

/-- Settles O37: its word by the encoder, its other words by R95; the text's characters are those of each byte, and
zeros follow it. -/
theorem hexRendersDigest : Obligations.HexRendersDigest := by
  refine ⟨decodeOfEncode .hex, fun _ => decode_reservedField_of_no_operand (w := 5) (by decide), fun s hDlen => ?_⟩
  have hLength := s.digestText_length
  have hChar {k : Nat} {c : Byte} (h : s.digestText[k]? = some c) :
      (s.storeBytes hexOutBase (fit 128 s.digestText)).byteAt (hexOutBase + k) = c := by
    obtain ⟨hk, -⟩ := List.getElem?_eq_some_iff.1 h
    exact s.byteAt_storeBytes_of_getElem? _ (by rwa [fit_getElem?_of_lt hk (by omega)])
  refine ⟨_, exec_hex s, fun j hj => ?_, fun j hFrom hTo => ?_, fun a ha => ?_, rfl⟩
  · obtain ⟨hHigh, hLow⟩ := flatMap_hexPair_getElem? (s.bytesAt_getElem? digestBase hj)
    constructor
    · exact (congrArg BitVec.toNat (hChar hHigh)).trans (by rw [toNat_hexChar, toNat_highNibble]; rfl)
    · exact (congrArg BitVec.toNat (hChar hLow)).trans (by rw [toNat_hexChar, toNat_lowNibble]; rfl)
  · exact s.byteAt_storeBytes_of_getElem? hexOutBase (fit_getElem?_of_le (by omega) hTo)
  · exact s.byteAt_storeBytes_outside (by rw [fit_length]; exact ha)

/-! ## The bytes of a text (R292, R293) -/

theorem isHex_iff (c : Byte) : isHex c = true ↔ c ∈ hexDigits := by
  revert c
  decide +kernel

theorem all_isHex_iff (s : State) (n : Nat) :
    (s.hexInBytes n).all isHex = true ↔ ∀ j < n, s.byteAt (0x280 + j) ∈ hexDigits := by
  simp [State.hexInBytes, State.bytesAt, isHex_iff, hexInBase]

/-- Byte k of a text is the value of its characters 2k and 2k + 1. -/
theorem unhexText_getElem? {l : List Byte} {k : Nat} {hi lo : Byte} (hHigh : l[2 * k]? = some hi)
    (hLow : l[2 * k + 1]? = some lo) : (unhexText l)[k]? = some (BitVec.ofNat 8 (hexVal hi * 16 + hexVal lo)) := by
  induction k generalizing l with
  | zero =>
    match l, hHigh, hLow with
    | _ :: _ :: _, rfl, rfl => rfl
  | succ k ih =>
    match l, hHigh, hLow with
    | _ :: _ :: _, hHigh, hLow => exact ih hHigh hLow

/-- R293: the digits of either case have the value they stand for. -/
theorem hexVal_of_digit : ∀ v < 16,
    hexVal (hexChar (BitVec.ofNat 4 v)) = v ∧ (10 ≤ v → hexVal (BitVec.ofNat 8 (0x61 + (v - 10))) = v) := by
  decide

theorem hexVal_of_digit_or {v : Nat} {c : Byte} (hv : v < 16)
    (h : c = hexChar (BitVec.ofNat 4 v) ∨ (10 ≤ v ∧ c = BitVec.ofNat 8 (0x61 + (v - 10)))) : hexVal c = v := by
  obtain ⟨hUpper, hLower⟩ := hexVal_of_digit v hv
  rcases h with rfl | ⟨hLetter, rfl⟩
  · exact hUpper
  · exact hLower hLetter

theorem exec_unhex_of_text {s : State} {n : BitVec 8} (hn : n.toNat ≤ 64)
    (hText : (s.hexInBytes (2 * n.toNat)).all isHex = true) :
    exec (.unhex n) s = .next (s.storeBytes bufBase (unhexText (s.hexInBytes (2 * n.toNat)))).finish := by
  rw [exec, execUnhex, if_neg (Nat.not_lt.2 hn), if_pos hText, succeed]

/-- Settles O38: each byte is the value of its two digits, and the bytes are n in number. -/
theorem unhexParsesText : Obligations.UnhexParsesText := by
  intro s n hn hDigits
  have hLength := unhexText_length n.toNat (s.hexInBytes (2 * n.toNat)) (State.hexInBytes_length s _)
  refine ⟨_, exec_unhex_of_text hn ((all_isHex_iff s _).2 hDigits), fun k hk hi lo hHi hLo hHigh hLow => ?_,
    fun a ha => ?_, rfl⟩
  · have hByte := unhexText_getElem? (s.bytesAt_getElem? hexInBase (n := 2 * n.toNat) (k := 2 * k) (by omega))
      (s.bytesAt_getElem? hexInBase (by omega))
    rw [hexInBase, hexVal_of_digit_or hHi hHigh, hexVal_of_digit_or hLo hLow] at hByte
    exact s.byteAt_storeBytes_of_getElem? bufBase hByte
  · exact s.byteAt_storeBytes_outside (by rw [hLength]; exact ha)

/-! ## UNHEX's errors (R294) -/

theorem exec_unhex_of_long (s : State) {n : BitVec 8} (hn : 64 < n.toNat) :
    exec (.unhex n) s = .next (s.raise .length) := by
  rw [exec, execUnhex, if_pos hn, fail]

theorem exec_unhex_of_not_text {s : State} {n : BitVec 8} (hn : n.toNat ≤ 64)
    (hText : ¬(s.hexInBytes (2 * n.toNat)).all isHex = true) : exec (.unhex n) s = .next (s.raise .hexFormat) := by
  rw [exec, execUnhex, if_neg (Nat.not_lt.2 hn), if_neg hText, fail]

theorem State.byteAt_raise (s : State) (e : CmdError) (a : Nat) : (s.raise e).byteAt a = s.byteAt a :=
  State.byteAt_congr rfl rfl a

/-- Settles O39: the length is checked before the characters, and an error writes no buffer. -/
theorem unhexErrors : Obligations.UnhexErrors := by
  intro s n
  refine ⟨exec_unhex_of_long s, fun hn ⟨j, hj, hBad⟩ => exec_unhex_of_not_text hn ?_, s.byteAt_raise⟩
  exact fun hText => hBad ((all_isHex_iff s _).1 hText j hj)

/-! ## The round trip (R295) -/

theorem unhexText_flatMap_hexPair (l : List Byte) : unhexText (l.flatMap hexPair) = l := by
  induction l with
  | nil => rfl
  | cons b l ih =>
    obtain ⟨hByte, -, -⟩ := unhex_hexPair b
    show BitVec.ofNat 8 _ :: unhexText (l.flatMap hexPair) = b :: l
    rw [hByte, ih]

theorem all_isHex_flatMap_hexPair (l : List Byte) : (l.flatMap hexPair).all isHex = true := by
  induction l with
  | nil => rfl
  | cons b l ih =>
    obtain ⟨-, hHigh, hLow⟩ := unhex_hexPair b
    simp [hexPair, hHigh, hLow, ih]

/-- Settles O40: the copy holds the digest's text, which is hex text and parses to the digest. -/
theorem hexRoundTrip : Obligations.HexRoundTrip := by
  intro s u hDlen t hHex hCopy
  have hLength := s.digestText_length
  have hn : (s.dlen.setWidth 8).toNat = s.dlen.toNat := by
    rw [BitVec.toNat_setWidth]
    omega
  have hText : u.hexInBytes (2 * (s.dlen.setWidth 8).toNat) = s.digestText := by
    cases hHex
    rw [hn, ← hLength]
    calc u.hexInBytes s.digestText.length
        = (s.storeBytes hexOutBase (fit 128 s.digestText)).bytesAt hexOutBase s.digestText.length :=
          State.bytesAt_eq_of_byteAt (by rw [hLength]; exact hCopy)
      _ = s.digestText := s.bytesAt_storeBytes_fit hexOutBase (by omega)
  have hExec := exec_unhex_of_text (s := u) (n := s.dlen.setWidth 8) (by omega)
    (by rw [hText]; exact all_isHex_flatMap_hexPair _)
  rw [hText, State.digestText, unhexText_flatMap_hexPair] at hExec
  exact ⟨_, hExec, fun k hk => u.byteAt_storeBytes_of_getElem? bufBase (s.bytesAt_getElem? digestBase hk)⟩

end Sys2Proof.Machine
end

section
/-!
PROOFS of 49_hmac_wrapper.md: what UPDATE and FINAL do in an HMAC session (R311, R312, R314, R315), and the session as a
function of the absorbed key and message (R310 to R314, R317).
-/
namespace Sys2Proof.Machine

/-! ## UPDATE and FINAL in an HMAC session -/

/-- Settles O30: `absorbKeyBlock` and the command's end. -/
theorem updateAbsorbsKeyBlock : Obligations.UpdateAbsorbsKeyBlock := by
  intro s hPhase
  rw [exec_update_of_key hPhase, State.absorbKeyBlock_eq, State.absorbBlock_eq]
  rfl

theorem exec_final_of_hkey {s : State} (h : s.phase = .hkey) {n : BitVec 8} (hn : n.toNat < blockSize s.alg) :
    exec (.final n) s = .next (s.endKey n.toNat).finish := by
  rw [exec_final_of_admitted (by simp [h]) hn, State.finalWrites_of_hkey h]

theorem exec_final_of_hmsg {s : State} (h : s.phase = .hmsg) {n : BitVec 8} (hn : n.toNat < blockSize s.alg) :
    exec (.final n) s = .next (s.endHmac n.toNat).finish := by
  rw [exec_final_of_admitted (by simp [h]) hn, State.finalWrites_of_hmsg h]

/-- The lengths that FINAL writes in LEN are below 2^128. -/
theorem toNat_ofNat_len {n : Nat} (h : n ≤ 256) : (BitVec.ofNat 128 (8 * n)).toNat = 8 * n := by
  rw [BitVec.toNat_ofNat]
  omega

/-- Settles O33: `endKey_eq` and the command's end. -/
theorem finalEndsKey : Obligations.FinalEndsKey := by
  intro s n hPhase hn
  have hBlock := blockSize_le s.alg
  rw [exec_final_of_hkey hPhase hn, State.endKey_eq]
  exact ⟨_, rfl, rfl, rfl, toNat_ofNat_len (by omega), rfl, rfl, rfl, rfl⟩

theorem State.byteAt_endHmac_outside (s : State) (n : Nat) {a : Nat} (h : a < 0x080 ∨ 0x0C0 ≤ a) :
    (s.endHmac n).byteAt a = s.byteAt a :=
  (State.byteAt_congr rfl rfl a).trans (s.byteAt_setDigest_outside s.alg _ h)

/-- Settles O34: the registers by `endHmac_frame`, the bytes in and outside DIGEST by its two laws. -/
theorem finalEndsHmac : Obligations.FinalEndsHmac := by
  intro s n hPhase hn inner opad
  have hBlock := blockSize_le s.alg
  have hOutput := outputLength_le s.alg
  have hExec := exec_final_of_hmsg hPhase hn
  have hDigest := s.endHmac_digestIs n.toNat
  have hOutside := fun a => s.byteAt_endHmac_outside n.toNat (a := a)
  obtain ⟨m, hWrites⟩ := s.endHmac_frame n.toNat
  rw [hWrites] at hExec hDigest hOutside
  refine ⟨_, hExec, rfl, toNat_ofNat_len (by omega), hDigest, ?_, rfl, rfl, rfl, rfl, hOutside, rfl⟩
  exact hDigest.2.trans (serialize_length _ _)

/-! ## The key (R312, R317) -/

@[simp] theorem hmacKey_length (a : Alg) (key : List Byte) : (hmacKey a key).length = blockSize a := fit_length _ _

theorem digest_length (a : Alg) (m : List Byte) : (digest a m).length = outputLength a := serialize_length _ _

/-- A key no longer than a block is kept. -/
theorem hmacKey_of_length_le {a : Alg} {key : List Byte} (h : key.length ≤ blockSize a) :
    hmacKey a key = fit (blockSize a) key := by
  rw [hmacKey, if_neg (Nat.not_lt.2 h)]

/-- A longer key is replaced by its digest. -/
theorem hmacKey_of_length_gt {a : Alg} {key : List Byte} (h : blockSize a < key.length) :
    hmacKey a key = fit (blockSize a) (digest a key) := by
  rw [hmacKey, if_pos h]

/-- Settles O59: a digest is shorter than a block, so as a key it is kept. -/
theorem longKeyIsItsDigest : Obligations.LongKeyIsItsDigest := by
  intro a key m hLong
  have hShort : (digest a key).length ≤ blockSize a := by
    rw [digest_length]
    exact (outputLength_lt_blockSize a).le
  have hKey : hmacKey a key = hmacKey a (digest a key) := by
    rw [hmacKey_of_length_gt hLong, hmacKey_of_length_le hShort]
  rw [hmac, hmac, hKey]

/-- Zeros after a string that is padded with zeros anyway make no difference. -/
theorem fit_fit {n k : Nat} {b : List Byte} (hb : b.length ≤ n) (hn : n ≤ k) : fit k (fit n b) = fit k b := by
  have hPad : n - b.length + (k - n) = k - b.length := by omega
  rw [fit_of_length_le (b := fit n b) (by rwa [fit_length]), fit_length, fit_of_length_le hb,
    fit_of_length_le (hb.trans hn), List.append_assoc, zeros, zeros, ← List.replicate_add, hPad, zeros]

/-- A string of at most a block in K0, and its block-size form. -/
theorem keyOfBytes_fit (a : Alg) {b : List Byte} (hb : b.length ≤ blockSize a) :
    keyOfBytes (fit (blockSize a) b) = keyOfBytes b := by
  apply Vector.toList_inj.1
  rw [keyOfBytes_toList, keyOfBytes_toList, fit_fit hb (blockSize_le a)]

/-- K0 holds a block-size key whole. -/
theorem take_keyOfBytes {a : Alg} {b : List Byte} (hb : b.length = blockSize a) :
    (keyOfBytes b).toList.take (blockSize a) = b := by
  have hFits : b.length ≤ 128 := hb ▸ blockSize_le a
  rw [keyOfBytes_toList, fit_of_length_le hFits, ← hb, List.take_left]

/-! ## The session (R310 to R314) -/

theorem keySession_startSession (s : State) (a : Alg) : KeySession (s.startSession a .hkey).finish a [] where
  phase := rfl
  alg := rfl
  blocks := Nat.zero_mod _
  chain := (chainOf_nil a).symm
  len := rfl
  raw := fun hSome => absurd rfl hSome

/-- LEN tells whether a key block has been absorbed, as long as it does not wrap. -/
theorem KeySession.len_eq_zero_iff {s : State} {a : Alg} {key : List Byte} (h : KeySession s a key)
    (hFits : 8 * key.length < 2 ^ 128) : s.len = 0 ↔ key = [] := by
  rw [h.len, BitVec.toNat_eq, BitVec.toNat_ofNat, Nat.mod_eq_of_lt hFits, ← List.length_eq_zero_iff]
  simp

/-- Whole blocks that are not empty are a block or more. -/
theorem KeySession.blockSize_le_length {s : State} {a : Alg} {key : List Byte} (h : KeySession s a key)
    (hSome : key ≠ []) : blockSize a ≤ key.length :=
  Nat.le_of_dvd (List.length_pos_iff.2 hSome) (Nat.dvd_of_mod_eq_zero h.blocks)

theorem KeySession.absorbKeyBlock {s : State} {a : Alg} {key : List Byte} (h : KeySession s a key)
    (hFits : 8 * key.length < 2 ^ 128) :
    KeySession s.absorbKeyBlock.finish a (key ++ s.bufBytes (blockSize a)) := by
  have hFirst := h.len_eq_zero_iff hFits
  have hBlock := h.blockSize_le_length
  obtain ⟨hPhase, rfl, hBlocks, hChain, hLen, hRaw⟩ := h
  rw [State.absorbKeyBlock_eq]
  refine ⟨hPhase, rfl, s.append_block_mod hBlocks, State.absorbBlock_h hBlocks hChain, ?_, fun _ => ?_⟩
  · rw [List.length_append, State.bufBytes_length]
    exact State.addLen_len_of_eq hLen _
  · show (if s.len = 0 then keyOfBytes (s.bufBytes (blockSize s.alg)) else s.k0) = _
    by_cases hKey : key = []
    · rw [if_pos (hFirst.2 hKey), hKey, List.nil_append,
        List.take_of_length_le (Nat.le_of_eq (State.bufBytes_length s _))]
    · rw [if_neg (mt hFirst.1 hKey), hRaw hKey, List.take_append_of_le_length (hBlock hKey)]

/-- R312: K0 at the end of the key is the block-size key of R317. -/
theorem KeySession.finalKey {s : State} {a : Alg} {key : List Byte} (h : KeySession s a key)
    (hFits : 8 * key.length < 2 ^ 128) {n : Nat} (hn : n < blockSize a) :
    s.finalKey n = keyOfBytes (hmacKey a (key ++ s.bufBytes n)) := by
  have hFirst := h.len_eq_zero_iff hFits
  have hBlock := h.blockSize_le_length
  obtain ⟨-, rfl, hBlocks, hChain, hLen, hRaw⟩ := h
  have hBytes : s.len.toNat / 8 = key.length := by
    rw [hLen, BitVec.toNat_ofNat]
    omega
  have hLength : (key ++ s.bufBytes n).length = key.length + n := by
    rw [List.length_append, State.bufBytes_length]
  rw [State.finalKey, hBytes]
  split
  · next hShort =>
    rw [hmacKey_of_length_le (hLength ▸ hShort), keyOfBytes_fit s.alg (hLength ▸ hShort)]
    by_cases hKey : key = []
    · rw [if_pos (hFirst.2 hKey), hKey, List.nil_append]
    · have hWhole : key.length = blockSize s.alg ∧ n = 0 := by
        have := hBlock hKey
        omega
      obtain ⟨hWhole, rfl⟩ := hWhole
      have hNone : s.bufBytes 0 = [] := rfl
      rw [if_neg (mt hFirst.1 hKey), hRaw hKey, List.take_of_length_le hWhole.le, hNone, List.append_nil]
  · next hLong =>
    have hDigest := s.serialize_finishHash_bufBytes s.alg hBlocks hn
    rw [← hChain, ← hLen] at hDigest
    rw [hmacKey_of_length_gt (by omega), hDigest, keyOfBytes_fit s.alg]
    rw [digest_length]
    exact (outputLength_lt_blockSize s.alg).le

/-- The chaining value after a pad block. -/
theorem chainOf_pad (a : Alg) (x : Byte) (key : List Byte) :
    chainOf a (xorRep x (hmacKey a key)) = compress a (iv a) (xorRep x (hmacKey a key)) := by
  have hPad := chainOf_append_block a [] (xorRep x (hmacKey a key)) (Nat.zero_mod _) (by simp)
  rwa [List.nil_append, chainOf_nil] at hPad

theorem KeySession.endKey {s : State} {a : Alg} {key : List Byte} (h : KeySession s a key)
    (hFits : 8 * key.length < 2 ^ 128) {n : Nat} (hn : n < blockSize a) :
    MessageSession (s.endKey n).finish a (key ++ s.bufBytes n) [] := by
  have hKey := h.finalKey hFits hn
  obtain ⟨-, rfl, -⟩ := h
  rw [State.endKey_eq, hKey, take_keyOfBytes (hmacKey_length _ _)]
  exact ⟨rfl, rfl, Nat.zero_mod _, rfl, by rw [List.append_nil, chainOf_pad]; rfl, rfl⟩

theorem pad_append_length (a : Alg) (x : Byte) (key m : List Byte) :
    (xorRep x (hmacKey a key) ++ m).length = blockSize a + m.length := by
  simp

/-- The inner message, its pad block first, is whole blocks when the message is. -/
theorem pad_append_mod {a : Alg} {m : List Byte} (hBlocks : m.length % blockSize a = 0) (x : Byte) (key : List Byte) :
    (xorRep x (hmacKey a key) ++ m).length % blockSize a = 0 := by
  rw [pad_append_length, Nat.add_mod_left, hBlocks]

theorem MessageSession.absorbBlock {s : State} {a : Alg} {key m : List Byte} (h : MessageSession s a key m) :
    MessageSession s.absorbBlock.finish a key (m ++ s.bufBytes (blockSize a)) := by
  obtain ⟨hPhase, rfl, hBlocks, hKey, hChain, hLen⟩ := h
  refine ⟨hPhase, rfl, s.append_block_mod hBlocks, hKey, ?_, ?_⟩
  · rw [← List.append_assoc]
    exact State.absorbBlock_h (pad_append_mod hBlocks _ key) hChain
  · rw [List.length_append, State.bufBytes_length, ← Nat.add_assoc]
    exact State.addLen_len_of_eq hLen _

/-- R314, R315: the outer hash runs over the opad block and the inner digest, and so serialises to the HMAC. -/
theorem MessageSession.serialize_outerHash {s : State} {a : Alg} {key m : List Byte} (h : MessageSession s a key m)
    {n : Nat} (hn : n < blockSize a) : serialize a (s.outerHash n) = hmac a key (m ++ s.bufBytes n) := by
  obtain ⟨-, rfl, hBlocks, hKey, hChain, hLen⟩ := h
  have hInner := s.serialize_finishHash_bufBytes s.alg (pad_append_mod hBlocks 0x36 key) hn
  rw [pad_append_length, ← hChain, ← hLen, List.append_assoc] at hInner
  have hOpad : (xorRep 0x5c (hmacKey s.alg key)).length = blockSize s.alg := by simp
  have hLength : 8 * (xorRep 0x5c (hmacKey s.alg key)).length % 2 ^ 128 = 8 * blockSize s.alg := by
    have := blockSize_le s.alg
    omega
  rw [hmac, digest_append_tail s.alg _ _ (by rw [hOpad, Nat.mod_self])
    (by rw [digest_length]; exact outputLength_lt_blockSize s.alg), chainOf_pad, hLength, ← hInner]
  rw [State.outerHash, State.keyBytes, hKey, take_keyOfBytes (hmacKey_length _ _)]

/-- Settles O58: the steps of an HMAC session. -/
theorem sessionComputesHmac : Obligations.SessionComputesHmac := by
  intro s a key m
  refine ⟨⟨_, exec_hinit_of_some (algOfCode_algCode a) s, keySession_startSession s a⟩,
    fun h hFits => ⟨⟨_, exec_update_of_key h.phase, h.absorbKeyBlock hFits⟩, fun n hn => ?_⟩,
    fun h => ⟨⟨_, exec_update_of_message (.inr h.phase), h.absorbBlock⟩, fun n hn => ?_⟩⟩
  · exact ⟨_, exec_final_of_hkey h.phase (h.alg ▸ hn), h.endKey hFits hn⟩
  · refine ⟨_, exec_final_of_hmsg h.phase (h.alg ▸ hn), ?_, rfl, rfl⟩
    rw [← h.serialize_outerHash hn, ← h.alg]
    exact (s.endHmac_digestIs n.toNat).congr rfl rfl rfl

end Sys2Proof.Machine
end

section
/-!
PROOFS of 60_exceptions.md: every command completes (R340), the error that is reported and its effect (R341 to R343), and
the transactions that answer BUSERR (R345).
-/
namespace Sys2Proof.Machine

/-! ## The error of a command (30_encoding.md R96) -/

/-- The error that a decoded command raises in a state: the checks of R96 that need the operand's value or the
session. -/
def commandError (i : Instr) (s : State) : Option CmdError :=
  match i with
  | .init c | .hinit c => if 4 < c.toNat then some .unknownAlgorithm else none
  | .update => if s.phase = .idle then some .sequence else none
  | .final n =>
    if s.phase = .idle then some .sequence else if blockSize s.alg ≤ n.toNat then some .length else none
  | .unhex n =>
    if 64 < n.toNat then some .length
    else if ∃ j < 2 * n.toNat, s.byteAt (0x280 + j) ∉ hexDigits then some .hexFormat else none
  | .nop | .hex | .clear => none

/-- A code above 4 names no algorithm, and the others do (R93). -/
theorem algOfCode_eq_none_iff (c : BitVec 4) : algOfCode c = none ↔ 4 < c.toNat := by
  revert c
  decide

theorem not_four_lt_of_algOfCode {c : BitVec 4} {a : Alg} (h : algOfCode c = some a) : ¬4 < c.toNat := by
  rw [← algOfCode_eq_none_iff, h]
  exact Option.some_ne_none a

theorem Phase.message_of_ne {p : Phase} (hIdle : p ≠ .idle) (hKey : p ≠ .hkey) : p = .hash ∨ p = .hmsg := by
  cases p with
  | idle => exact absurd rfl hIdle
  | hash => exact .inl rfl
  | hkey => exact absurd rfl hKey
  | hmsg => exact .inr rfl

/-- A command with an error ends in it, and a command without one makes its writes and finishes. -/
theorem exec_by_commandError (i : Instr) (s : State) :
    (∃ e, commandError i s = some e ∧ exec i s = .next (s.raise e))
      ∨ (commandError i s = none ∧ ∃ u : State, exec i s = .next u.finish ∧ CommandWrites i s u) := by
  cases i with
  | nop => exact .inr ⟨rfl, _, rfl, rfl⟩
  | init c =>
    cases hCode : algOfCode c with
    | none => exact .inl ⟨_, if_pos ((algOfCode_eq_none_iff c).1 hCode), exec_init_of_none hCode s⟩
    | some a =>
      exact .inr ⟨if_neg (not_four_lt_of_algOfCode hCode), _, exec_init_of_some hCode s, a, hCode, rfl⟩
  | hinit c =>
    cases hCode : algOfCode c with
    | none => exact .inl ⟨_, if_pos ((algOfCode_eq_none_iff c).1 hCode), exec_hinit_of_none hCode s⟩
    | some a =>
      exact .inr ⟨if_neg (not_four_lt_of_algOfCode hCode), _, exec_hinit_of_some hCode s, a, hCode, rfl⟩
  | update =>
    by_cases hIdle : s.phase = .idle
    · exact .inl ⟨_, if_pos hIdle, exec_update_of_idle hIdle⟩
    · refine .inr ⟨if_neg hIdle, _, ?_, hIdle, rfl⟩
      by_cases hKey : s.phase = .hkey
      · rw [if_pos hKey, exec_update_of_key hKey]
      · rw [if_neg hKey, exec_update_of_message (Phase.message_of_ne hIdle hKey)]
  | final n =>
    by_cases hIdle : s.phase = .idle
    · exact .inl ⟨_, if_pos hIdle, exec_final_of_idle hIdle n⟩
    · rcases Nat.lt_or_ge n.toNat (blockSize s.alg) with hn | hn
      · exact .inr ⟨by simp [commandError, hIdle, hn], _, exec_final_of_admitted hIdle hn, hIdle, hn, rfl⟩
      · exact .inl ⟨_, by simp [commandError, hIdle, hn], exec_final_of_long hIdle hn⟩
  | hex => exact .inr ⟨rfl, _, rfl, rfl⟩
  | unhex n =>
    rcases Nat.lt_or_ge 64 n.toNat with hn | hn
    · exact .inl ⟨_, if_pos hn, exec_unhex_of_long s hn⟩
    · by_cases hText : (s.hexInBytes (2 * n.toNat)).all isHex = true
      · have hDigits := (all_isHex_iff s _).1 hText
        exact .inr ⟨by simpa [commandError, Nat.not_lt.2 hn] using hDigits, _, exec_unhex_of_text hn hText, hn, hText,
          rfl⟩
      · have hBad := mt (all_isHex_iff s _).2 hText
        exact .inl ⟨_, by simpa [commandError, Nat.not_lt.2 hn] using hBad, exec_unhex_of_not_text hn hText⟩
  | clear => exact .inr ⟨rfl, _, rfl, rfl⟩

theorem exec_of_commandError_some {i : Instr} {s : State} {e : CmdError} (h : commandError i s = some e) :
    exec i s = .next (s.raise e) := by
  rcases exec_by_commandError i s with ⟨e', hError, hExec⟩ | ⟨hNone, -⟩
  · cases hError.symm.trans h
    exact hExec
  · cases hNone.symm.trans h

theorem exec_of_commandError_none {i : Instr} {s : State} (h : commandError i s = none) :
    ∃ u : State, exec i s = .next u.finish ∧ CommandWrites i s u := by
  rcases exec_by_commandError i s with ⟨e, hError, -⟩ | ⟨-, hWrites⟩
  · cases hError.symm.trans h
  · exact hWrites

/-- Settles O7: an error's effect and the end of a success both complete the command, and neither touches PEND, the
reset input or the environment. -/
theorem everyCommandCompletes : Obligations.EveryCommandCompletes := by
  intro i s
  rcases exec_by_commandError i s with ⟨e, -, hExec⟩ | ⟨-, u, hExec, hWrites⟩
  · exact ⟨_, hExec, rfl, rfl, rfl, rfl, rfl⟩
  · refine ⟨_, hExec, rfl, rfl, ?_⟩
    rw [hWrites.frame.1]
    exact ⟨rfl, rfl, rfl⟩

/-! ## The first error of the check order (R343) -/

/-- The error of a word, if any: the decoder's, or its command's. -/
def decodedError (d : Decoded) (s : State) : Option CmdError :=
  match d with
  | .reject e => some e
  | .instr i => commandError i s

/-- One field that R95 requires to be zero. -/
theorem decodedError_checkFields (n : Nat) (i : Instr) (s : State) :
    decodedError (checkFields (n == 0) i) s = if n ≠ 0 then some .reservedField else commandError i s := by
  cases n <;> rfl

/-- Two fields that R95 requires to be zero. -/
theorem decodedError_checkFields_and (m n : Nat) (i : Instr) (s : State) :
    decodedError (checkFields (m == 0 && n == 0) i) s =
      if m ≠ 0 ∨ n ≠ 0 then some .reservedField else commandError i s := by
  cases m with
  | zero => simpa using decodedError_checkFields n i s
  | succ m => rfl

/-- R96 on the word's number is the decoder's checks and then the command's. -/
theorem firstError_eq (v : Word) (s : State) : firstError v s = decodedError (decode v) s := by
  rcases decode_cases v with ⟨hOp, h⟩ | ⟨hOp, hRsv, h⟩ | ⟨hRsv, h⟩
  · rw [h]
    exact if_pos hOp
  · have hNonzero : v.toNat / 65536 ≠ 0 := by omega
    rw [h]
    exact (if_neg (Nat.not_le.2 hOp)).trans (if_pos hNonzero)
  · have hZero : v.toNat / 65536 = 0 := by omega
    rcases h with ⟨hOp, h⟩ | ⟨hOp, h⟩ | ⟨hOp, h⟩ | ⟨hOp, h⟩ | ⟨hOp, h⟩ | ⟨hOp, h⟩ | ⟨hOp, h⟩ | ⟨hOp, h⟩ <;>
      rw [h] <;>
      simp [firstError, hOp, hZero, decodedError_checkFields, decodedError_checkFields_and, commandError, algField_toNat,
        nField_toNat]

theorem engineStep_of_firstError {s : State} {e : CmdError} (h : firstError s.pend s = some e) :
    engineStep s = .next (s.raise e) := by
  rw [firstError_eq] at h
  cases hDecode : decode s.pend with
  | reject e' =>
    rw [hDecode] at h
    cases h
    exact engineStep_of_reject hDecode
  | instr i =>
    rw [hDecode] at h
    exact (engineStep_of_instr hDecode).trans (exec_of_commandError_some h)

theorem engineStep_of_no_firstError {s : State} (h : firstError s.pend s = none) :
    ∃ (i : Instr) (u : State), engineStep s = .next u.finish ∧ CommandWrites i s u := by
  rw [firstError_eq] at h
  cases hDecode : decode s.pend with
  | reject e =>
    rw [hDecode] at h
    cases h
  | instr i =>
    rw [hDecode] at h
    obtain ⟨u, hExec, hWrites⟩ := exec_of_commandError_none h
    exact ⟨i, u, (engineStep_of_instr hDecode).trans hExec, hWrites⟩

/-- Settles O10: the check order is the decoder's and then the command's, and a success writes neither ERR nor
ERRCODE. -/
theorem firstErrorIsReported : Obligations.FirstErrorIsReported := by
  intro s
  refine ⟨fun e => engineStep_of_firstError, fun hNone => ?_⟩
  obtain ⟨i, u, hStep, hWrites⟩ := engineStep_of_no_firstError hNone
  refine ⟨_, hStep, ?_⟩
  rw [hWrites.frame.1]
  exact ⟨rfl, rfl, rfl, rfl⟩

/-- Settles O9: the engine's step is `raise`, which leaves the machine in IDLE. -/
theorem errorEffect : Obligations.ErrorEffect := by
  intro s e hError
  refine ⟨_, engineStep_of_firstError hError, by cases e <;> rfl, s.byteAt_raise e, fun n => ?_⟩
  exact ⟨exec_update_of_idle rfl, exec_final_of_idle rfl n⟩

/-! ## BUSERR (R345) -/

theorem not_admitted_iff (addr : BitVec 12) (size : Nat) :
    admitted addr size = false ↔ addr.toNat % 4 ≠ 0 ∨ size ≠ 4 := by
  rw [Bool.eq_false_iff, Ne, admitted_iff, not_and_or]

@[simp] theorem busWrite_env_answers (s : State) (addr : BitVec 12) (size : Nat) (v : Word) :
    (busWrite s addr size v).env.answers =
      (if admitted addr size then .writeOk else .busErr) :: s.env.answers := by
  unfold busWrite
  split <;> simp

theorem busWrite_sameCore_of_not_admitted {s : State} {addr : BitVec 12} {size : Nat} (h : admitted addr size = false)
    (v : Word) : SameCore s (busWrite s addr size v) := by
  rw [busWrite, h]
  exact answer_sameCore s .busErr

/-- Settles O15: a transaction that is not admitted is only answered, and an admitted one is answered OK. -/
theorem busErrExactlyWhenNotAdmitted : Obligations.BusErrExactlyWhenNotAdmitted := by
  intro s addr size data rest
  refine ⟨fun hActs => ⟨_, step_read hActs, by simp, ?_⟩, fun hActs => ⟨_, step_write hActs, by simp, ?_⟩⟩
  · rw [turn_busRead_answers, readAnswer]
    cases hAdmitted : admitted addr size with
    | false =>
      rw [if_pos ((not_admitted_iff addr size).1 hAdmitted)]
      exact ⟨rfl, turn_busRead_sameCore s rest addr size⟩
    | true =>
      rw [if_neg (by simp [← not_admitted_iff, hAdmitted])]
      exact ⟨_, rfl⟩
  · rw [busWrite_env_answers]
    cases hAdmitted : admitted addr size with
    | false =>
      rw [if_pos ((not_admitted_iff addr size).1 hAdmitted)]
      exact ⟨by simp, (turn_sameCore s rest).trans (busWrite_sameCore_of_not_admitted hAdmitted data)⟩
    | true =>
      rw [if_neg (by simp [← not_admitted_iff, hAdmitted])]
      simp

end Sys2Proof.Machine
end

section
/-!
PROOFS of 70_reset_and_hazards.md: reset (R370, R371), the acceptance of a command (R375), the step of a placed word (R378,
log entry 9), and the completion of a pending command whatever the host does (R377, R379, R380, R387).
-/
namespace Sys2Proof.Machine

/-! ## Reset (R370, R371) -/

theorem engineDue_of_held {s : State} (h : s.resetHeld = true) : engineDue s = false := by
  simp [engineDue, h]

/-- While reset is asserted a step is the host's turn. -/
theorem step_of_held {s : State} (h : s.resetHeld = true) : step s = hostTurn s.tick :=
  step_not_due (engineDue_of_held h)

theorem hostTurn_resetPin {s : State} {b : Bool} {rest : List HostOp} (h : s.env.host = .resetPin b :: rest) :
    hostTurn s = .next ((s.setHost rest).resetInput b) := by
  simp [hostTurn, h]

/-- The release gives every register its reset value, and the environment goes on (log entry 7). -/
theorem State.resetInput_release {s : State} (h : s.resetHeld = true) :
    s.resetInput false =
      { State.reset with env := { s.env with countdown := 0, resets := s.env.resets + 1 } } := by
  simp [State.resetInput, h]

theorem statusWord_reset : statusWord State.reset = 0 := by decide

/-- Settles O12: after the release the registers are those of `State.reset`, and no buffer byte is listed. -/
theorem resetRelease : Obligations.ResetRelease := by
  intro s rest hHeld hHost
  have hStep : step s = .next ((s.tick.setHost rest).resetInput false) := by
    rw [step_of_held hHeld, hostTurn_resetPin (by simpa using hHost)]
  rw [State.resetInput_release (by simpa using hHeld)] at hStep
  refine ⟨_, hStep, statusWord_reset, rfl, rfl, rfl, rfl, rfl, rfl, rfl, rfl, by simp, by simp, fun a => ?_⟩
  simp [State.byteAt, State.reset, Memory.find]

/-- Settles O13: a turn of the host while reset is asserted is a transaction, which is the fault, or changes the reset
input, or nothing. -/
theorem resetHeldStandsStill : Obligations.ResetHeldStandsStill := by
  intro s hHeld
  rw [step_of_held hHeld]
  refine ⟨fun addr size rest hHost => by simp [hostTurn, hHost, hHeld],
    fun addr size data rest hHost => by simp [hostTurn, hHost, hHeld],
    fun rest hHost => by simp [hostTurn, hHost, hHeld], fun t hTurn hNoRelease => ?_⟩
  have hHeld' : s.tick.resetHeld ≠ false := by simp [hHeld]
  rcases hostTurn_cases hTurn with ⟨-, rfl⟩ | ⟨b, rest, hHost, rfl⟩ | ⟨hr, -⟩ | ⟨hr, -⟩ | ⟨hr, -⟩
  · exact tick_sameCore s
  · rw [State.tick_env_host] at hHost
    cases b with
    | false => exact absurd hHost (hNoRelease rest)
    | true =>
      have hSame : (s.tick.setHost rest).resetInput true = s.tick.setHost rest := by
        have hStays : (s.tick.setHost rest).resetHeld = true := by simpa using hHeld
        rw [State.resetInput, if_pos rfl, ← hStays]
      rw [hSame]
      exact turn_sameCore s rest
  · exact absurd hr hHeld'
  · exact absurd hr hHeld'
  · exact absurd hr hHeld'

/-- Settles O14: asserting reset sets the level of the input alone. -/
theorem resetAssertion : Obligations.ResetAssertion := by
  intro s rest hActs
  have hStep : step s = .next ((s.tick.setHost rest).resetInput true) := by
    rw [step_not_due hActs.notDue, hostTurn_resetPin (by simpa using hActs.next)]
  obtain ⟨hCore, hResets⟩ := turn_sameCore s rest
  exact ⟨_, hStep, rfl, congrArg (State.resetInput · true) hCore, hResets⟩

/-! ## Acceptance and a placed word (R375, R378) -/

theorem regAt_cmd : regAt 0x008 = (.cmd, 0) := regAt_of_row 0x008 0x004 .cmd (by decide) (by decide) (by decide)

/-- Settles O23: CMD's write while no command runs is `accept`, which but for the latency is what R375 writes. -/
theorem commandAcceptance : Obligations.CommandAcceptance := by
  intro s v hIdle
  refine writeLeaves_of_writeReg (by decide) rfl fun w hCore => ?_
  have hAccept : writeReg w .cmd 0 v = w.accept v := by simp [writeReg, hCore.busy, hIdle]
  rw [regAt_cmd, hAccept]
  exact SameCore.trans ⟨rfl, by simp⟩ (hCore.accept v)

theorem decodeTableWord_eq_some {nbits w : Nat} {i : Instr} (h : decodeTableWord nbits w = some i) :
    decode (BitVec.ofNat 32 (w % 2 ^ nbits)) = .instr i := by
  unfold decodeTableWord at h
  split at h
  · next j hj => rw [hj, Option.some.inj h]
  · cases h

/-- Settles O6: the placed word is pending with its latency over. -/
theorem placedWordRunsNext : Obligations.PlacedWordRunsNext := by
  intro s nbits w i h
  rw [step_due ((engineDue_iff _).2 ⟨rfl, rfl, rfl⟩)]
  exact engineStep_of_instr (decodeTableWord_eq_some h)

/-! ## A pending command's outcome (R379, R387) -/

/-- The state with another OVR and another environment, in the same reset: what a turn of the host can change while a
command runs. -/
def State.withHost (s : State) (ovr : Bool) (env : Env) : State :=
  { s with ovr := ovr, env := { env with resets := s.env.resets } }

theorem State.absorbKeyBlock_withHost (s : State) (o : Bool) (e : Env) :
    (s.withHost o e).absorbKeyBlock = s.absorbKeyBlock.withHost o e := by
  rw [State.absorbKeyBlock_eq, State.absorbKeyBlock_eq]
  rfl

theorem State.finalWrites_withHost (s : State) (o : Bool) (e : Env) (n : Nat) :
    (s.withHost o e).finalWrites n = (s.finalWrites n).withHost o e := by
  have hPhase : (s.withHost o e).phase = s.phase := rfl
  unfold State.finalWrites
  rw [hPhase]
  cases s.phase <;> rfl

theorem commandError_withHost (i : Instr) (s : State) (o : Bool) (e : Env) :
    commandError i (s.withHost o e) = commandError i s := by
  cases i <;> rfl

/-- What a command writes depends neither on OVR nor on the environment. -/
theorem CommandWrites.withHost {i : Instr} {s u : State} (h : CommandWrites i s u) (o : Bool) (e : Env) :
    ∃ o', CommandWrites i (s.withHost o e) (u.withHost o' e) := by
  cases i with
  | nop => cases h; exact ⟨o, rfl⟩
  | init c => obtain ⟨a, hCode, rfl⟩ := h; exact ⟨o, a, hCode, rfl⟩
  | hinit c => obtain ⟨a, hCode, rfl⟩ := h; exact ⟨o, a, hCode, rfl⟩
  | update =>
    obtain ⟨hPhase, rfl⟩ := h
    refine ⟨o, hPhase, ?_⟩
    rw [State.absorbKeyBlock_withHost]
    show _ = if s.phase = .hkey then _ else _
    split <;> rfl
  | final n =>
    obtain ⟨hPhase, hn, rfl⟩ := h
    exact ⟨o, hPhase, hn, (s.finalWrites_withHost o e _).symm⟩
  | hex => cases h; exact ⟨o, rfl⟩
  | unhex n => obtain ⟨hn, hText, rfl⟩ := h; exact ⟨o, hn, hText, rfl⟩
  | clear => cases h; exact ⟨false, rfl⟩

theorem CommandWrites.unique {i : Instr} {s u v : State} (hu : CommandWrites i s u) (hv : CommandWrites i s v) :
    u = v := by
  cases i with
  | init c | hinit c =>
    obtain ⟨a, hCode, rfl⟩ := hu
    obtain ⟨b, hCode', rfl⟩ := hv
    cases hCode.symm.trans hCode'
    rfl
  | update => exact hu.2.trans hv.2.symm
  | final n | unhex n =>
    obtain ⟨-, -, hu⟩ := hu
    obtain ⟨-, -, hv⟩ := hv
    exact hu.trans hv.symm
  | nop | hex | clear => exact Eq.trans hu (Eq.symm hv)

theorem exec_withHost {i : Instr} {s u : State} (h : exec i s = .next u) (o : Bool) (e : Env) :
    ∃ o', exec i (s.withHost o e) = .next (u.withHost o' e) := by
  have hSame := commandError_withHost i s o e
  cases hError : commandError i s with
  | some err =>
    cases h.symm.trans (exec_of_commandError_some hError)
    exact ⟨o, exec_of_commandError_some (hSame.trans hError)⟩
  | none =>
    obtain ⟨w, hExec, hWrites⟩ := exec_of_commandError_none hError
    obtain ⟨w', hExec', hWrites'⟩ := exec_of_commandError_none (hSame.trans hError)
    cases h.symm.trans hExec
    obtain ⟨o', hMoved⟩ := hWrites.withHost o e
    cases hWrites'.unique hMoved
    exact ⟨o', hExec'⟩

theorem engineStep_withHost {s u : State} (h : engineStep s = .next u) (o : Bool) (e : Env) :
    ∃ o', engineStep (s.withHost o e) = .next (u.withHost o' e) := by
  have hPend : (s.withHost o e).pend = s.pend := rfl
  cases hDecode : decode s.pend with
  | reject err =>
    rw [engineStep_of_reject hDecode] at h
    cases h
    exact ⟨o, engineStep_of_reject (hPend ▸ hDecode)⟩
  | instr i =>
    rw [engineStep_of_instr hDecode] at h
    rw [engineStep_of_instr (hPend ▸ hDecode)]
    exact exec_withHost h o e

/-- The engine's step completes the command (R340, R380). -/
theorem engineStep_next (s : State) :
    ∃ u, engineStep s = .next u ∧ u.busy = false ∧ u.done = true ∧ u.env = s.env := by
  cases hDecode : decode s.pend with
  | reject err => exact ⟨_, engineStep_of_reject hDecode, rfl, rfl, rfl⟩
  | instr i =>
    obtain ⟨u, hExec, hBusy, hDone, -, -, hEnv⟩ := everyCommandCompletes i s
    exact ⟨u, (engineStep_of_instr hDecode).trans hExec, hBusy, hDone, hEnv⟩

/-! ## The host's turns while a command runs (R376, R377) -/

@[simp] theorem busRead_env_countdown (s : State) (addr : BitVec 12) (size : Nat) :
    (busRead s addr size).env.countdown = s.env.countdown := by
  unfold busRead
  split <;> simp

/-- A command is accepted only while none runs. -/
theorem busWrite_env_countdown {s : State} (hBusy : s.busy = true) (addr : BitVec 12) (size : Nat) (v : Word) :
    (busWrite s addr size v).env.countdown = s.env.countdown := by
  have hWrite (r : BusReg) (off : Nat) : (writeReg s r off v).env.countdown = s.env.countdown := by
    cases r <;> simp [writeReg, State.writeBuffer, hBusy]
  unfold busWrite
  split <;> simp [hWrite]

/-- A released machine has a turn for every operation of the host. -/
theorem hostTurn_next {s : State} (hReleased : s.resetHeld = false) : ∃ t, hostTurn s = .next t := by
  unfold hostTurn
  split <;> simp [hReleased]

/-- A turn while a command runs leaves the latency and issues no operation that the host did not have. -/
theorem hostTurn_env {s t : State} (hBusy : s.busy = true) (hReleased : s.resetHeld = false)
    (h : hostTurn s = .next t) : t.env.countdown = s.env.countdown ∧ t.env.host ⊆ s.env.host := by
  rcases hostTurn_cases h with ⟨-, rfl⟩ | ⟨b, rest, hHost, rfl⟩ | ⟨-, addr, size, rest, hHost, rfl⟩
    | ⟨-, addr, size, v, rest, hHost, rfl⟩ | ⟨-, rest, hHost, rfl⟩
  · exact ⟨rfl, List.Subset.refl _⟩
  · cases b <;> simp [State.resetInput, hReleased, hHost]
  · simp [hHost]
  · exact ⟨busWrite_env_countdown (s := s.setHost rest) hBusy addr size v, by simp [hHost]⟩
  · simp [hBusy]

theorem SameCore.eq_withHost {s t : State} (h : SameCore s t) : t = s.withHost s.ovr t.env := by
  obtain ⟨hCore, hResets⟩ := h
  rw [State.withHost, ← hResets]
  exact hCore

/-- A turn while a command runs changes nothing but OVR and the environment, unless it touches the reset input (R376). -/
theorem HostEffect.eq_withHost {s t : State} (h : HostEffect s t) (hBusy : s.busy = true)
    (hReleased : s.resetHeld = false) (hNoReset : HostOp.resetPin true ∉ s.env.host) : ∃ o, t = s.withHost o t.env := by
  cases h with
  | keeps hCore => exact ⟨_, hCore.eq_withHost⟩
  | asserts rest hHost => exact absurd (by simp [hHost]) hNoReset
  | releases rest hHost hHeld => cases hReleased.symm.trans hHeld
  | drops addr v rest hHost hBusy' hAddr hCore => exact ⟨true, hCore.eq_withHost⟩
  | accepts v hIdle => cases hBusy.symm.trans hIdle
  | stores a v hIdle => cases hBusy.symm.trans hIdle

/-- One turn of a pending command's latency. -/
theorem step_pending {s : State} (hBusy : s.busy = true) (hReleased : s.resetHeld = false)
    (hNoReset : HostOp.resetPin true ∉ s.env.host) {n : Nat} (hLeft : s.env.countdown = n + 1) :
    ∃ o e, step s = .next (s.withHost o e) ∧ e.countdown = n ∧ HostOp.resetPin true ∉ e.host := by
  have hDue : engineDue s = false := by simp [engineDue, hLeft]
  obtain ⟨t, hTurn⟩ := hostTurn_next (s := s.tick) (by simpa using hReleased)
  have hStep : step s = .next t := (step_not_due hDue).trans hTurn
  obtain ⟨o, hOpen⟩ := (step_hostEffect hDue hStep).eq_withHost hBusy hReleased hNoReset
  obtain ⟨hCountdown, hHost⟩ := hostTurn_env (by simpa using hBusy) (by simpa using hReleased) hTurn
  rw [s.tick_env_countdown hBusy, hLeft, Nat.add_sub_cancel] at hCountdown
  rw [State.tick_env_host] at hHost
  exact ⟨o, t.env, hOpen ▸ hStep, hCountdown, fun hMem => hNoReset (hHost hMem)⟩

/-! ## The completion (R377, R379, R387) -/

theorem runSteps_succ_of_step {s t : State} (h : step s = .next t) (n : Nat) : runSteps (n + 1) s = runSteps n t := by
  simp [runSteps, h]

/-- The run to a pending command's completion, by induction on what is left of the latency. -/
theorem runSteps_pending (n : Nat) : ∀ s u : State, s.busy = true → s.resetHeld = false →
    HostOp.resetPin true ∉ s.env.host → s.env.countdown = n → engineStep s = .next u →
    ∃ o e, runSteps (n + 1) s = .next (u.withHost o e) := by
  induction n with
  | zero =>
    intro s u hBusy hReleased _ hOver hEngine
    have hStep := (step_due ((engineDue_iff s).2 ⟨hBusy, hReleased, hOver⟩)).trans hEngine
    exact ⟨u.ovr, u.env, runSteps_succ_of_step hStep 0⟩
  | succ n ih =>
    intro s u hBusy hReleased hNoReset hLeft hEngine
    obtain ⟨o, e, hStep, hCountdown, hNoReset'⟩ := step_pending hBusy hReleased hNoReset hLeft
    obtain ⟨o', hEngine'⟩ := engineStep_withHost hEngine o e
    obtain ⟨o'', e'', hRun⟩ := ih (s.withHost o e) _ hBusy hReleased hNoReset' hCountdown hEngine'
    exact ⟨o'', e'', (runSteps_succ_of_step hStep _).trans hRun⟩

/-- Settles O8: the run ends in the engine's step on the starting state, but for OVR and the environment. -/
theorem pendingCommandCompletes : Obligations.PendingCommandCompletes := by
  intro s hBusy hReleased hNoReset
  obtain ⟨u, hEngine, hIdle, hDone, hEnv⟩ := engineStep_next s
  obtain ⟨o, e, hRun⟩ := runSteps_pending _ s u hBusy hReleased (fun hMem => hNoReset _ hMem rfl) rfl hEngine
  have hResets : u.env.resets = s.env.resets := by rw [hEnv]
  exact ⟨u, _, hEngine, hRun, rfl, hIdle, hDone, hResets⟩

end Sys2Proof.Machine
end
